-- ==== Sys2Proof/Word.lean ====
section
/-! DEFINITION. The block's words: the 64-bit command and response words and the widths of the
fields they carry (spec/00_scope.md R7, R9; spec/30_encoding.md R82, R95). Every value is unsigned and
nothing is ever sign-extended (R9); `{a, b}` of the spec is `a ++ b` here, and `w[hi:lo]` is
`w.extractLsb hi lo`. -/

namespace Sys2Proof

/-- A command word on `cmd_data` (R82, R98). -/
abbrev CmdWord := BitVec 64

/-- A response word on `rsp_data` (R95, R98). -/
abbrev RspWord := BitVec 64

/-- A symbol field: `SYM_W = 21` bits (R7). Not every value of the field is a symbol. -/
abbrev Sym := BitVec 21

/-- The bits of a code-table entry, right-aligned (R10, R21). -/
abbrev CodeBits := BitVec 26

/-- A node-table index; 0x3FF is NULL (R30, R31). -/
abbrev NodeIx := BitVec 10

/-- A bit position or a bit count of the bit buffer, and a group index of the hex packer
(R23, R25, R26). -/
abbrev BitPos := BitVec 24

/-- The detail register FINFO (R28). -/
abbrev Detail := BitVec 48

/-- The DATA field of a response (R95). -/
abbrev RspData := BitVec 56

end Sys2Proof
end

