-- ==== Sys2Proof/Syntax.lean ====
section
/-! DEFINITION. The command set: one constructor for each of the 14 rows of spec/opcode_table.json
(spec/30_encoding.md R93), with the fields of its format (R84 to R91) as they stand in the word:
unsigned, not scaled, not extended (R92). Whether a field's VALUE is legal is no matter of syntax
(R94): see WellFormed.lean for the check and Machine/ for what the block does about it. -/

namespace Sys2Proof

/-- One command of the block. -/
inductive Instr where
  /-- NOP, format N (R200) -/
  | nop
  /-- SRST, format N (R201) -/
  | srst
  /-- LDCT, format C: CTI, LEN, CODE, SYM (R110) -/
  | ldct (cti : BitVec 8) (len : BitVec 5) (code : CodeBits) (sym : Sym)
  /-- LDLEAF, format L: NI, SYM (R111) -/
  | ldleaf (ni : NodeIx) (sym : Sym)
  /-- LDINT, format I: NI, LEFT, RIGHT (R112) -/
  | ldint (ni left right : NodeIx)
  /-- SETROOT, format R: NI (R113) -/
  | setroot (ni : NodeIx)
  /-- ENC, format S: SYM (R140) -/
  | enc (sym : Sym)
  /-- PUTBITS, format P: CNT, DATA (R142) -/
  | putbits (cnt : BitVec 6) (data : BitVec 32)
  /-- DEC, format N (R180) -/
  | dec
  /-- HEXRD, format N (R160) -/
  | hexrd
  /-- BSCLR, format N (R143) -/
  | bsclr
  /-- DECRW, format N (R181) -/
  | decrw
  /-- HEXRW, format N (R161) -/
  | hexrw
  /-- STAT, format T: SEL (R202) -/
  | stat (sel : BitVec 4)
  deriving DecidableEq, Repr

/-- The registers STAT selects, under the names of the assembler (R91, R99). -/
inductive StatReg where
  | bsLen | decPos | hxIdx | root | fcause | finfo | fcmdHi | fcmdLo
  | nSym | nNode | maxLen | bsCap
  deriving DecidableEq, Repr

namespace Instr

/-- The row of spec/opcode_table.json an instruction belongs to (R93). -/
def mnemonic : Instr → String
  | .nop           => "NOP"
  | .srst          => "SRST"
  | .ldct _ _ _ _  => "LDCT"
  | .ldleaf _ _    => "LDLEAF"
  | .ldint _ _ _   => "LDINT"
  | .setroot _     => "SETROOT"
  | .enc _         => "ENC"
  | .putbits _ _   => "PUTBITS"
  | .dec           => "DEC"
  | .hexrd         => "HEXRD"
  | .bsclr         => "BSCLR"
  | .decrw         => "DECRW"
  | .hexrw         => "HEXRW"
  | .stat _        => "STAT"

end Instr

end Sys2Proof
end

