-- ==== Sys2Proof/Decode.lean ====
section
/-! DEFINITION. The command words (spec/30_encoding.md R82 to R94, R101): the decoder, total on every
64-bit word and rejecting by name, the encoder written from the same formats, and the match and mask
table of R93. A command is one whole 64-bit word on a 64-bit port, so no byte order arises (R61). -/

namespace Sys2Proof

/-- Why a word spells no command (R94, R101); both fault ILLEGAL_CMD (R83, R221). -/
inductive DecodeError where
  /-- OPC = 0x3 or 0xF -/
  | reservedOpcode
  /-- a bit that no field of the command's format names is 1 -/
  | reservedBits
  deriving DecidableEq, Repr

/-- `OPC = cmd[63:60]` (R82). -/
def opcode (w : CmdWord) : BitVec 4 := w.extractLsb 63 60

/-- `i`, when the reserved bits of its format are all 0 (R83). -/
def whenZero {n : Nat} (reserved : BitVec n) (i : Instr) : Except DecodeError Instr :=
  if reserved = 0 then .ok i else .error .reservedBits

/-- The command a word spells (R94): the opcode selects the format, the format names the fields and
the reserved bits. Field values are not checked here. -/
def decode (w : CmdWord) : Except DecodeError Instr :=
  match (opcode w).toNat with
  | 0x0 => whenZero (w.extractLsb 59 0) .nop
  | 0x1 => whenZero (w.extractLsb 59 0) .srst
  | 0x2 => .ok (.ldct (w.extractLsb 59 52) (w.extractLsb 51 47) (w.extractLsb 46 21)
                  (w.extractLsb 20 0))
  | 0x4 => whenZero (w.extractLsb 49 21) (.ldleaf (w.extractLsb 59 50) (w.extractLsb 20 0))
  | 0x5 => whenZero (w.extractLsb 29 0)
             (.ldint (w.extractLsb 59 50) (w.extractLsb 49 40) (w.extractLsb 39 30))
  | 0x6 => whenZero (w.extractLsb 49 0) (.setroot (w.extractLsb 59 50))
  | 0x7 => whenZero (w.extractLsb 59 21) (.enc (w.extractLsb 20 0))
  | 0x8 => whenZero (w.extractLsb 59 38) (.putbits (w.extractLsb 37 32) (w.extractLsb 31 0))
  | 0x9 => whenZero (w.extractLsb 59 0) .dec
  | 0xA => whenZero (w.extractLsb 59 0) .hexrd
  | 0xB => whenZero (w.extractLsb 59 0) .bsclr
  | 0xC => whenZero (w.extractLsb 59 0) .decrw
  | 0xD => whenZero (w.extractLsb 59 0) .hexrw
  | 0xE => whenZero (w.extractLsb 59 4) (.stat (w.extractLsb 3 0))
  | _   => .error .reservedOpcode

/-- The word of a command: its fields from bit 63 down, reserved bits 0 (R84 to R91). -/
def encode : Instr → CmdWord
  | .nop                    => 0x0#4 ++ 0#60
  | .srst                   => 0x1#4 ++ 0#60
  | .ldct cti len code sym  => 0x2#4 ++ cti ++ len ++ code ++ sym
  | .ldleaf ni sym          => 0x4#4 ++ ni ++ 0#29 ++ sym
  | .ldint ni left right    => 0x5#4 ++ ni ++ left ++ right ++ 0#30
  | .setroot ni             => 0x6#4 ++ ni ++ 0#50
  | .enc sym                => 0x7#4 ++ 0#39 ++ sym
  | .putbits cnt data       => 0x8#4 ++ 0#22 ++ cnt ++ data
  | .dec                    => 0x9#4 ++ 0#60
  | .hexrd                  => 0xA#4 ++ 0#60
  | .bsclr                  => 0xB#4 ++ 0#60
  | .decrw                  => 0xC#4 ++ 0#60
  | .hexrw                  => 0xD#4 ++ 0#60
  | .stat sel               => 0xE#4 ++ 0#56 ++ sel

/-- One row of R93's match and mask table. -/
structure OpcodeRow where
  mnemonic : String
  pattern  : CmdWord
  mask     : CmdWord
  deriving DecidableEq, Repr

/-- R93's match and mask table (spec/opcode_table.json), in the table's order; the mask covers OPC and
every reserved bit. -/
def opcodeTable : List OpcodeRow :=
  [⟨"NOP",     0x0000000000000000#64, 0xFFFFFFFFFFFFFFFF#64⟩,
   ⟨"SRST",    0x1000000000000000#64, 0xFFFFFFFFFFFFFFFF#64⟩,
   ⟨"LDCT",    0x2000000000000000#64, 0xF000000000000000#64⟩,
   ⟨"LDLEAF",  0x4000000000000000#64, 0xF003FFFFFFE00000#64⟩,
   ⟨"LDINT",   0x5000000000000000#64, 0xF00000003FFFFFFF#64⟩,
   ⟨"SETROOT", 0x6000000000000000#64, 0xF003FFFFFFFFFFFF#64⟩,
   ⟨"ENC",     0x7000000000000000#64, 0xFFFFFFFFFFE00000#64⟩] ++
  [⟨"PUTBITS", 0x8000000000000000#64, 0xFFFFFFC000000000#64⟩,
   ⟨"DEC",     0x9000000000000000#64, 0xFFFFFFFFFFFFFFFF#64⟩,
   ⟨"HEXRD",   0xA000000000000000#64, 0xFFFFFFFFFFFFFFFF#64⟩,
   ⟨"BSCLR",   0xB000000000000000#64, 0xFFFFFFFFFFFFFFFF#64⟩,
   ⟨"DECRW",   0xC000000000000000#64, 0xFFFFFFFFFFFFFFFF#64⟩,
   ⟨"HEXRW",   0xD000000000000000#64, 0xFFFFFFFFFFFFFFFF#64⟩,
   ⟨"STAT",    0xE000000000000000#64, 0xFFFFFFFFFFFFFFF0#64⟩]

/-- A word matches a row (R94). -/
abbrev OpcodeRow.Matches (r : OpcodeRow) (w : CmdWord) : Prop := w &&& r.mask = r.pattern

/-- The host's view of the decoder: the instruction read from a command of `nbits` bits whose value is
`w`, bits numbered as spec/opcode_table.json numbers them. Every command is 64 bits long (R98), so a
longer one is none; the bits above `nbits` are 0. -/
def decodeTableWord (nbits w : Nat) : Option Instr :=
  if nbits ≤ 64 then (decode (BitVec.ofNat 64 (w % 2 ^ nbits))).toOption else none

end Sys2Proof
end

