-- ==== Sys2Proof/Config.lean ====
section
/-! DEFINITION. The four parameters of a configured block (spec/00_scope.md R6, decision D4). The spec
leaves them open and no rule may assume one size, so they are DATA of the state (the read-only
registers of spec/10_state.md R33): every statement of this package is about every configuration.
The open parameters HOST_MAP (R67) and RST_HOLD (R270) have no effect on any rule and are left out.
The model needs no free value: what the spec leaves unspecified (fields of an invalid entry, buffer
bits at or beyond BS_LEN, R41) is held by no field of the state, so nothing can read it. -/

namespace Sys2Proof

/-- The capacities of one block (R6). -/
structure Params where
  /-- N_SYM, code-table entries -/
  nSym   : Nat
  /-- N_NODE, node-table entries -/
  nNode  : Nat
  /-- MAX_LEN, longest code in bits -/
  maxLen : Nat
  /-- BS_CAP, bit-buffer capacity in bits -/
  bsCap  : Nat
  deriving DecidableEq, Repr

/-- The legal ranges of R6, which the command fields' widths set. -/
abbrev Params.Legal (p : Params) : Prop :=
  (1 ≤ p.nSym ∧ p.nSym ≤ 256) ∧ (2 ≤ p.nNode ∧ p.nNode ≤ 1023) ∧
  (1 ≤ p.maxLen ∧ p.maxLen ≤ 26) ∧ (1 ≤ p.bsCap ∧ p.bsCap ≤ 2 ^ 24 - 1)

/-- The reference configuration of R6, the one every test vector of the spec uses. -/
def Params.reference : Params where
  nSym   := 16
  nNode  := 32
  maxLen := 26
  bsCap  := 4096

/-- R8's sizing advice, which the block does not check: a configuration that holds every tree whose
symbols fit the code table, and every code of such a tree. -/
abbrev Params.HoldsEveryTree (p : Params) : Prop :=
  2 * p.nSym - 1 ≤ p.nNode ∧ 2 ≤ p.nNode ∧ p.nSym - 1 ≤ p.maxLen

end Sys2Proof
end

