-- ==== Sys2Proof/Machine/Operands.lean ====
section
/-! DEFINITION. The operand forms of the commands and the value checks the spec puts on them: symbols
(R7), code-table and node indices with NULL (R31, R222), bit strings stored in a numeric field (R10,
R92) with their lengths (R223), and the STAT selector (R91). No operand is a register (R92), none is
scaled and none is extended. -/

namespace Sys2Proof.Machine

/-- NULL = 0x3FF, the child index that means "no child" (R31). -/
def nullIx : NodeIx := 0x3FF#10

/-- The largest legal symbol, 0x10FFFF (R7). -/
def maxSymbol : Nat := 0x10FFFF

/-- A value of the 21-bit field that is a symbol (R7); surrogates are accepted like any other. -/
abbrev IsSymbol (sym : Sym) : Prop := sym.toNat ≤ maxSymbol

/-- LDCT's length check (R110, R223): `LEN = 0`, `LEN > MAX_LEN` or `CODE ≥ 2^LEN`. -/
abbrev BadCodeLength (p : Params) (len : BitVec 5) (code : CodeBits) : Prop :=
  len.toNat = 0 ∨ p.maxLen < len.toNat ∨ 2 ^ len.toNat ≤ code.toNat

/-- PUTBITS's length check (R142, R223): `CNT = 0`, `CNT > 32` or `DATA ≥ 2^CNT`. -/
abbrev BadBitCount (cnt : BitVec 6) (data : BitVec 32) : Prop :=
  cnt.toNat = 0 ∨ 32 < cnt.toNat ∨ 2 ^ cnt.toNat ≤ data.toNat

/-- LDINT's check of a child index (R112, R222): neither NULL nor below N_NODE. -/
abbrev BadChild (p : Params) (ix : NodeIx) : Prop :=
  ix ≠ nullIx ∧ p.nNode ≤ ix.toNat

/-- The bit string of length `n` stored in a numeric field: element `k` is `f[n-1-k]`, so the first
bit is the most significant of the `n` low-order bits (R10). -/
def bitString (n : Nat) {w : Nat} (f : BitVec w) : List Bool :=
  (List.range n).map fun k => f.getLsbD (n - 1 - k)

/-- The number a bit string spells, first bit most significant (R10, and R160's `v <- 2*v + bit`). -/
def bitsValue (bits : List Bool) : Nat :=
  bits.foldl (fun v b => 2 * v + b.toNat) 0

/-- R91's table of SEL values; 12 to 15 name no register. -/
def statReg (sel : BitVec 4) : Option StatReg :=
  match sel.toNat with
  | 0  => some .bsLen
  | 1  => some .decPos
  | 2  => some .hxIdx
  | 3  => some .root
  | 4  => some .fcause
  | 5  => some .finfo
  | 6  => some .fcmdHi
  | 7  => some .fcmdLo
  | 8  => some .nSym
  | 9  => some .nNode
  | 10 => some .maxLen
  | 11 => some .bsCap
  | _  => none

/-- The SEL value of a register's name (R91, R99). -/
def statSel : StatReg → BitVec 4
  | .bsLen  => 0
  | .decPos => 1
  | .hxIdx  => 2
  | .root   => 3
  | .fcause => 4
  | .finfo  => 5
  | .fcmdHi => 6
  | .fcmdLo => 7
  | .nSym   => 8
  | .nNode  => 9
  | .maxLen => 10
  | .bsCap  => 11

end Sys2Proof.Machine
end

