-- ==== Sys2Proof/Machine/Flags.lean ====
section
/-! DEFINITION. What a command reports: the fault causes (spec/60_exceptions.md R220), the response
STATUS values (spec/30_encoding.md R95) and the response word. The block has no condition flags:
FAULTED is its only status flag (spec/10_state.md R36), set by the fault entry and cleared by SRST and
reset (Machine/Ops.lean). -/

namespace Sys2Proof.Machine

/-- The fault causes of R220. -/
inductive FaultCause where
  | illegalCmd | badIndex | badLength | badSymbol | dupSymbol
  | encNoCode | bufOverflow | decBadRoot | decNoChild | decMidPath
  deriving DecidableEq, Repr

/-- The code FCAUSE holds for a cause (R220); 0 is NONE and 11 to 15 are never produced. -/
def FaultCause.code : FaultCause → BitVec 4
  | .illegalCmd  => 1
  | .badIndex    => 2
  | .badLength   => 3
  | .badSymbol   => 4
  | .dupSymbol   => 5
  | .encNoCode   => 6
  | .bufOverflow => 7
  | .decBadRoot  => 8
  | .decNoChild  => 9
  | .decMidPath  => 10

/-- The STATUS field of a response (R95). -/
inductive Status where
  /-- OK: the command executed -/
  | ok
  /-- END: the command executed and found no more data -/
  | endOfData
  /-- FAULT: this command raised the fault now in FCAUSE -/
  | fault
  /-- FAULTED: the block was already faulted and refused the command -/
  | faulted
  deriving DecidableEq, Repr

/-- The STATUS encoding of R95; 4 to 15 are never produced. -/
def Status.code : Status → BitVec 4
  | .ok        => 0
  | .endOfData => 1
  | .fault     => 2
  | .faulted   => 3

/-- The response word of R95: `STATUS[63:60]`, `CAUSE[59:56]`, `DATA[55:0]`. -/
def responseWord (status : Status) (cause : BitVec 4) (data : RspData) : RspWord :=
  status.code ++ cause ++ data

/-- STATUS of a response word. -/
def rspStatus (r : RspWord) : BitVec 4 := r.extractLsb 63 60

/-- CAUSE of a response word. -/
def rspCause (r : RspWord) : BitVec 4 := r.extractLsb 59 56

/-- DATA of a response word. -/
def rspDataField (r : RspWord) : RspData := r.extractLsb 55 0

end Sys2Proof.Machine
end

