-- ==== Sys2Proof/Machine/State.lean ====
section
/-! DEFINITION. The state of the block: the record of spec/10_state.md R42 field by field, the parameter
registers of R33, and the host interface of spec/30_encoding.md R80 and R81 as plain data. Also the
reset state (R41, R260) and the closed types of what a step can stop with.

STATE IS PLAIN DATA. What R41, R24 and decision D35 leave unspecified is held by no field: an invalid
code-table entry has no symbol, length or code, an EMPTY node has no fields, and `bs` holds the bits
of the positions below BS_LEN only (assumption log 1 and 2). -/

namespace Sys2Proof.Machine

/-- A code-table entry (R21): the `valid` bit is the constructor; the other fields exist only while it
is 1 (R41: "unspecified; unobservable while valid = 0"). -/
inductive CtEntry where
  /-- valid = 0 -/
  | invalid
  /-- valid = 1, with the symbol, the length and the right-aligned bits of its code -/
  | valid (sym : Sym) (len : BitVec 5) (code : CodeBits)
  deriving DecidableEq, Repr

/-- A node-table entry (R30, R42): the 2-bit `kind` is the constructor (0 EMPTY, 1 LEAF, 2 INTERNAL; 3
is never stored), with the fields that are meaningful for it. -/
inductive Node where
  | empty
  | leaf (sym : Sym)
  /-- the child taken on bit 0 and the child taken on bit 1; 0x3FF is NULL (R31) -/
  | internal (left right : NodeIx)
  deriving DecidableEq, Repr

/-- Where the one outstanding transaction of R81 stands. -/
inductive Transaction where
  /-- no command is outstanding: `cmd_ready` is 1 -/
  | idle
  /-- a command has transferred and has not executed yet -/
  | accepted (cmd : CmdWord)
  /-- the command has executed and its response is offered: `rsp_valid` is 1 -/
  | answered (rsp : RspWord)
  deriving DecidableEq, Repr

/-- What the host drives on the block's inputs (R80) while one step is made. -/
structure HostDrive where
  /-- the level of `rst_n`: false is reset asserted -/
  rstN     : Bool
  /-- `cmd_valid` with `cmd_data`: `none` is `cmd_valid = 0` -/
  cmd      : Option CmdWord
  /-- `rsp_ready` -/
  rspReady : Bool
  deriving DecidableEq, Repr

/-- The host does nothing: no reset, no command, no response taken (R270). -/
def HostDrive.quiet : HostDrive := ⟨true, none, false⟩

/-- The state of the block and of its interface. -/
structure State where
  /-- N_SYM, N_NODE, MAX_LEN, BS_CAP: constants no command writes (R33) -/
  params  : Params
  /-- CT, entry i at place i (R21) -/
  ct      : List CtEntry
  /-- NODE, entry n at place n (R30) -/
  node    : List Node
  /-- ROOT (R32) -/
  root    : NodeIx
  /-- BS, the bits at positions 0 … BS_LEN-1 in order (R22, R24, D35) -/
  bs      : List Bool
  /-- BS_LEN (R23) -/
  bsLen   : BitPos
  /-- DEC_POS (R25) -/
  decPos  : BitPos
  /-- HX_IDX (R26) -/
  hxIdx   : BitPos
  /-- FAULTED (R27) -/
  faulted : Bool
  /-- FCAUSE (R27, R220) -/
  fcause  : BitVec 4
  /-- FINFO (R28) -/
  finfo   : Detail
  /-- FCMD (R29) -/
  fcmd    : CmdWord
  /-- the outstanding transaction (R81): interface state, not architectural (R37) -/
  txn     : Transaction
  /-- the MODEL's own field: what the host drives, one entry a step, the first entry now; when the list
  is at its end the host does nothing (R270) -/
  drive   : List HostDrive
  deriving DecidableEq, Repr

/-- What stops the machine. NOTHING DOES: a fault of the block is a next state (R232), a faulted block
goes on answering (R233), and no command hangs (R183), so this type has no constructor. -/
inductive Fault where
  deriving DecidableEq, Repr

/-- What the model refuses to run. -/
inductive Refusal where
  /-- Raised by an arm of `exec` for an instruction without a meaning, under its mnemonic; no arm is
  left in that state. Safe: a refused run proves nothing about the block. -/
  | notModelled (mnemonic : String)
  deriving DecidableEq, Repr

/-- The state hardware reset leaves in a block with parameters `p` (R41, R260): every entry invalid or
EMPTY, ROOT NULL, the buffer empty, the positions and the fault registers 0, no transaction. -/
def State.resetOf (p : Params) : State where
  params  := p
  ct      := List.replicate p.nSym .invalid
  node    := List.replicate p.nNode .empty
  root    := 0x3FF#10
  bs      := []
  bsLen   := 0
  decPos  := 0
  hxIdx   := 0
  faulted := false
  fcause  := 0
  finfo   := 0
  fcmd    := 0
  txn     := .idle
  drive   := []

/-- The block right after reset, in the reference configuration of R6 (assumption log 4). -/
def State.reset : State := State.resetOf Params.reference

end Sys2Proof.Machine
end

