-- ==== Sys2Proof/Machine/Ops.lean ====
section
/-! DEFINITION. The named operations over the state that the meanings share: reading and writing the
two tables and the bit buffer (spec/20_memory.md R60 to R65), delivering a response
(spec/30_encoding.md R95, R96), taking a fault and leaving the faulted state
(spec/60_exceptions.md R232, R233, R236). -/

namespace Sys2Proof.Machine

/-- What an instruction's meaning answers. -/
abbrev Answer := Host.Outcome State Fault Refusal

/-- The symbol a code-table entry holds, if it is valid (R21). -/
def CtEntry.sym? : CtEntry → Option Sym
  | .valid sym _ _ => some sym
  | .invalid       => none

/-- The symbol a node holds, if it is a LEAF (R30). -/
def Node.sym? : Node → Option Sym
  | .leaf sym     => some sym
  | .internal _ _ => none
  | .empty        => none

namespace State

/-- `CT[i]` (R11); invalid where the table has no entry i (assumption log 9). -/
def ctAt (s : State) (i : Nat) : CtEntry := s.ct.getD i .invalid

/-- `NODE[n]` (R11); EMPTY where the table has no entry n (assumption log 9). -/
def nodeAt (s : State) (n : Nat) : Node := s.node.getD n .empty

/-- The BitStream `BS[0] … BS[BS_LEN-1]` (R24): the only bits any command can observe. -/
def bitStream (s : State) : List Bool := s.bs.take s.bsLen.toNat

/-- `CT[i] <- e` (R110). -/
def writeCt (s : State) (i : Nat) (e : CtEntry) : State := { s with ct := s.ct.set i e }

/-- `NODE[n] <- v` (R111, R112). -/
def writeNode (s : State) (n : Nat) (v : Node) : State := { s with node := s.node.set n v }

/-- `BSAppend(bits)` (R11): the bits go to positions BS_LEN … BS_LEN+|bits|-1, and BS_LEN grows by
|bits|. -/
def appendBits (s : State) (bits : List Bool) : State :=
  { s with bs    := s.bitStream ++ bits
           bsLen := BitVec.ofNat 24 (s.bsLen.toNat + bits.length) }

/-- `respond(STATUS, DATA)` (R11, R95), with CAUSE the FCAUSE of the state the command leaves (R96). -/
def respond (s : State) (status : Status) (data : RspData) : State :=
  { s with txn := .answered (responseWord status s.fcause data) }

/-- Fault entry, `raise Cause(info)` (R11, R232), for the command word `cmd`: FAULTED, FCAUSE, FINFO and
FCMD are written, nothing else of the block is, and the response is FAULT with the new cause. There is
no handler: no pc, no mode and no stack change. -/
def raise (s : State) (cause : FaultCause) (info : Detail) (cmd : CmdWord) : State :=
  ({ s with faulted := true
            fcause  := cause.code
            finfo   := info
            fcmd    := cmd } : State).respond .fault 0

/-- A refused command (R233): no effect on any state, response FAULTED with the held cause. -/
def refuse (s : State) : State := s.respond .faulted 0

/-- Every piece of the block's state at its reset value, the parameters and the host's drive kept (R41,
R260): what SRST and hardware reset both do (R261), and the only way out of the faulted state (R236). -/
def clear (s : State) : State := { State.resetOf s.params with drive := s.drive }

/-- A command's effect, unless the block is faulted and refuses it (R233). -/
def unlessFaulted (s : State) (effect : State) : Answer :=
  .next (if s.faulted then s.refuse else effect)

/-- The index below N_SYM of a valid entry that holds `sym`, other than `except` (R110, R140): the first
such, and the only one where entries are unique (R39; assumption log 8). -/
def findCode (s : State) (except : Option Nat) (sym : Sym) : Option Nat :=
  (List.range s.params.nSym).find? fun i => some i != except && (s.ctAt i).sym? == some sym

/-- The index below N_NODE of a LEAF that holds `sym`, other than `except` (R111): the first such, and
the only one where leaves are unique (R40; assumption log 8). -/
def findLeaf (s : State) (except : Nat) (sym : Sym) : Option Nat :=
  (List.range s.params.nNode).find? fun n => n != except && (s.nodeAt n).sym? == some sym

/-- The length and bits of the code ENC appends for `sym`, if a valid entry holds it (R140). -/
def codeOf (s : State) (sym : Sym) : Option (BitVec 5 × CodeBits) :=
  match s.findCode none sym with
  | none   => none
  | some i =>
    match s.ctAt i with
    | .valid _ len code => some (len, code)
    | .invalid          => none

end State

/-- FINFO of BAD_INDEX (R222): the offending index at [9:0], which field at [11:10]. -/
def indexDetail (field : BitVec 2) (ix : NodeIx) : Detail := 0#36 ++ field ++ ix

/-- FINFO of DUP_SYMBOL (R225): the index already holding the symbol at [33:24], SYM at [20:0]. -/
def dupDetail (holder : Nat) (sym : Sym) : Detail := 0#14 ++ BitVec.ofNat 10 holder ++ 0#3 ++ sym

/-- FINFO of BUF_OVERFLOW (R227): the bits requested at [29:24], BS_LEN before at [23:0]. -/
def overflowDetail (count : BitVec 6) (bsLen : BitPos) : Detail := 0#18 ++ count ++ bsLen

/-- FINFO of DEC_NO_CHILD (R229): the bit's position at [47:24], the bit at [10], the cursor's node at
[9:0]. -/
def noChildDetail (pos : BitPos) (bit : Bool) (cur : NodeIx) : Detail :=
  pos ++ 0#13 ++ BitVec.ofBool bit ++ cur

/-- FINFO of DEC_MID_PATH (R230): the position at [47:24], the last node reached at [9:0]. -/
def midPathDetail (pos : BitPos) (cur : NodeIx) : Detail := pos ++ 0#14 ++ cur

/-- DATA of HEXRD and DEC's position field: a position or index at [47:24] (R97). -/
def atPosition (pos : BitPos) (low : BitVec 24) : RspData := 0#8 ++ pos ++ low

end Sys2Proof.Machine
end

