-- ==== Sys2Proof/Machine/Control.lean ====
section
/-! DEFINITION. The control and status commands (spec/44_control.md): NOP, SRST, STAT. -/

namespace Sys2Proof.Machine

/-- NOP (R200). -/
def execNop (s : State) : Answer :=
  s.unlessFaulted <| s.respond .ok 0

/-- SRST (R201): soft reset, which runs while the block is faulted too. (An SRST word with reserved bits
set spells no command: Machine/Interface.lean.) -/
def execSrst (s : State) : Answer :=
  .next (s.clear.respond .ok 0)

/-- The register a STAT selector names, zero-extended (R91, R202). -/
def State.statValue (s : State) : StatReg → RspData
  | .bsLen  => s.bsLen.setWidth 56
  | .decPos => s.decPos.setWidth 56
  | .hxIdx  => s.hxIdx.setWidth 56
  | .root   => s.root.setWidth 56
  | .fcause => s.fcause.setWidth 56
  | .finfo  => s.finfo.setWidth 56
  | .fcmdHi => (s.fcmd.extractLsb 63 32).setWidth 56
  | .fcmdLo => (s.fcmd.extractLsb 31 0).setWidth 56
  | .nSym   => BitVec.ofNat 56 s.params.nSym
  | .nNode  => BitVec.ofNat 56 s.params.nNode
  | .maxLen => BitVec.ofNat 56 s.params.maxLen
  | .bsCap  => BitVec.ofNat 56 s.params.bsCap

/-- STAT (R202): read one status register, while the block is faulted too; a reserved SEL faults
ILLEGAL_CMD, or is refused while the block is faulted. -/
def execStat (sel : BitVec 4) (s : State) : Answer :=
  match statReg sel with
  | some r => .next (s.respond .ok (s.statValue r))
  | none   => s.unlessFaulted <| s.raise .illegalCmd 0 (encode (.stat sel))

end Sys2Proof.Machine
end

