-- ==== Sys2Proof/Machine/Decoder.lean ====
section
/-! DEFINITION. The BitDecoder (spec/43_decoder.md): DEC, DECRW. -/

namespace Sys2Proof.Machine

/-- How DEC's walk ends (R180). -/
inductive WalkEnd where
  /-- the cursor landed on a LEAF: its symbol, and the position after the bits read -/
  | landed (sym : Sym) (pos : Nat)
  /-- a fault: its cause and detail -/
  | failed (cause : FaultCause) (info : Detail)
  deriving DecidableEq, Repr

/-- The child a node names for a bit: left on 0, right on 1; a LEAF and an EMPTY node have none
(R180). -/
def Node.child : Node → Bool → NodeIx
  | .internal left right, bit => if bit then right else left
  | .leaf _, _ => nullIx
  | .empty, _  => nullIx

/-- The node a child index leads to, EMPTY where it leads nowhere: NULL, at or above N_NODE, or a node
that is EMPTY (R180, R229). -/
def State.childNode (s : State) (ix : NodeIx) : Node :=
  if ix = nullIx ∨ s.params.nNode ≤ ix.toNat then .empty else s.nodeAt ix.toNat

/-- The loop of R180 from cursor `cur`: `bits` are the BitStream bits still to read and `pos` the
position of the first of them. Each round uses up one bit, so the walk ends on every node table
(R183). -/
def State.walk (s : State) : List Bool → Nat → NodeIx → WalkEnd
  | [], pos, cur => .failed .decMidPath (midPathDetail (BitVec.ofNat 24 pos) cur)
  | bit :: rest, pos, cur =>
    let nxt := (s.nodeAt cur.toNat).child bit
    match s.childNode nxt with
    | .empty        => .failed .decNoChild (noChildDetail (BitVec.ofNat 24 pos) bit cur)
    | .leaf sym     => .landed sym (pos + 1)
    | .internal _ _ => s.walk rest (pos + 1) nxt

/-- DEC (R180): decode one symbol. END comes before the root is looked at. -/
def execDec (s : State) : Answer :=
  let cmd := encode .dec
  s.unlessFaulted <|
    if s.decPos = s.bsLen then s.respond .endOfData (atPosition s.decPos 0)
    else if s.params.nNode ≤ s.root.toNat ∨ s.nodeAt s.root.toNat = .empty then
      s.raise .decBadRoot (s.root.setWidth 48) cmd
    else
      match s.walk (s.bitStream.drop s.decPos.toNat) s.decPos.toNat s.root with
      | .failed cause info => s.raise cause info cmd
      | .landed sym pos    =>
        let t : State := { s with decPos := BitVec.ofNat 24 pos }
        t.respond .ok (atPosition t.decPos (0#3 ++ sym))

/-- DECRW (R181): rewind the decoder. -/
def execDecrw (s : State) : Answer :=
  s.unlessFaulted <| ({ s with decPos := 0 } : State).respond .ok 0

end Sys2Proof.Machine
end

