-- ==== Sys2Proof/Machine/Encoder.lean ====
section
/-! DEFINITION. The BitEncoder (spec/41_encoder.md): ENC, PUTBITS, BSCLR. -/

namespace Sys2Proof.Machine

/-- ENC (R140): look up the symbol's code and append it, first element first. -/
def execEnc (sym : Sym) (s : State) : Answer :=
  let cmd := encode (.enc sym)
  s.unlessFaulted <|
    if ¬ IsSymbol sym then s.raise .badSymbol (sym.setWidth 48) cmd
    else
      match s.codeOf sym with
      | none => s.raise .encNoCode (sym.setWidth 48) cmd
      | some (len, code) =>
        if s.params.bsCap < s.bsLen.toNat + len.toNat then
          s.raise .bufOverflow (overflowDetail (len.setWidth 6) s.bsLen) cmd
        else
          let t := s.appendBits (bitString len.toNat code)
          t.respond .ok (0#27 ++ len ++ t.bsLen)

/-- PUTBITS (R142): append CNT raw bits, first element first. -/
def execPutbits (cnt : BitVec 6) (data : BitVec 32) (s : State) : Answer :=
  let cmd := encode (.putbits cnt data)
  s.unlessFaulted <|
    if BadBitCount cnt data then s.raise .badLength (cnt.setWidth 48) cmd
    else if s.params.bsCap < s.bsLen.toNat + cnt.toNat then
      s.raise .bufOverflow (overflowDetail cnt s.bsLen) cmd
    else
      let t := s.appendBits (bitString cnt.toNat data)
      t.respond .ok (0#26 ++ cnt ++ t.bsLen)

/-- BSCLR (R143): empty the BitStream and rewind both readers; the tables, ROOT and the fault state stay.
The bits are not cleared but no longer observable, so they hold no value (R24, D35). -/
def execBsclr (s : State) : Answer :=
  s.unlessFaulted <|
    ({ s with bs := [], bsLen := 0, decPos := 0, hxIdx := 0 } : State).respond .ok 0

end Sys2Proof.Machine
end

