-- ==== Sys2Proof/Machine/HexPacker.lean ====
section
/-! DEFINITION. The HexPacker (spec/42_hexpacker.md): HEXRD, HEXRW. -/

namespace Sys2Proof.Machine

/-- The ASCII code of the uppercase digit for a 4-bit value: R162's table. -/
def hexDigit (v : BitVec 4) : BitVec 8 :=
  match v.toNat with
  | 0  => 0x30
  | 1  => 0x31
  | 2  => 0x32
  | 3  => 0x33
  | 4  => 0x34
  | 5  => 0x35
  | 6  => 0x36
  | 7  => 0x37
  | 8  => 0x38
  | 9  => 0x39
  | 10 => 0x41
  | 11 => 0x42
  | 12 => 0x43
  | 13 => 0x44
  | 14 => 0x45
  | _  => 0x46

/-- The bits of group `g` that the BitStream holds: positions 4g … 4g+3 below BS_LEN (R26, R160). -/
def State.group (s : State) (g : Nat) : List Bool := (s.bitStream.drop (4 * g)).take 4

/-- The value of a group, lowest position most significant, padded on the right with 0 to 4 bits
(R160). -/
def groupValue (bits : List Bool) : BitVec 4 :=
  BitVec.ofNat 4 (bitsValue (bits ++ List.replicate (4 - bits.length) false))

/-- PAD: 1 if any bit of the group was padding (R97, R160). -/
def groupPad (bits : List Bool) : Bool := decide (bits.length < 4)

/-- DATA of a HEXRD that delivers the digit of a group, with HX_IDX after it (R97, R160): HX_IDX at
[47:24], PAD at [12], the value at [11:8], the digit's code at [7:0]. -/
def digitData (hxIdx : BitPos) (bits : List Bool) : RspData :=
  atPosition hxIdx
    (0#11 ++ BitVec.ofBool (groupPad bits) ++ groupValue bits ++ hexDigit (groupValue bits))

/-- HEXRD (R160): render group HX_IDX and move on, or END when no BitStream bit is left at or after
4·HX_IDX. -/
def execHexrd (s : State) : Answer :=
  s.unlessFaulted <|
    if s.bsLen.toNat ≤ 4 * s.hxIdx.toNat then s.respond .endOfData (atPosition s.hxIdx 0)
    else
      let t : State := { s with hxIdx := s.hxIdx + 1 }
      t.respond .ok (digitData t.hxIdx (s.group s.hxIdx.toNat))

/-- HEXRW (R161): rewind the hex packer. -/
def execHexrw (s : State) : Answer :=
  s.unlessFaulted <| ({ s with hxIdx := 0 } : State).respond .ok 0

end Sys2Proof.Machine
end

