-- ==== Sys2Proof/Machine/Tables.lean ====
section
/-! DEFINITION. Table loading (spec/40_tables.md): LDCT, LDLEAF, LDINT, SETROOT. Each checks its operands
in the order of its rule (spec/60_exceptions.md R234) and raises the first cause that applies; a word
with reserved bits set never reaches these meanings (Machine/Interface.lean). -/

namespace Sys2Proof.Machine

/-- LDCT (R110): load one code-table entry. -/
def execLdct (cti : BitVec 8) (len : BitVec 5) (code : CodeBits) (sym : Sym) (s : State) : Answer :=
  let cmd := encode (.ldct cti len code sym)
  s.unlessFaulted <|
    if s.params.nSym ≤ cti.toNat then s.raise .badIndex (indexDetail 0 (cti.setWidth 10)) cmd
    else if BadCodeLength s.params len code then s.raise .badLength (len.setWidth 48) cmd
    else if ¬ IsSymbol sym then s.raise .badSymbol (sym.setWidth 48) cmd
    else
      match s.findCode (some cti.toNat) sym with
      | some j => s.raise .dupSymbol (dupDetail j sym) cmd
      | none   => (s.writeCt cti.toNat (.valid sym len code)).respond .ok 0

/-- LDLEAF (R111): load one leaf node. -/
def execLdleaf (ni : NodeIx) (sym : Sym) (s : State) : Answer :=
  let cmd := encode (.ldleaf ni sym)
  s.unlessFaulted <|
    if s.params.nNode ≤ ni.toNat then s.raise .badIndex (indexDetail 0 ni) cmd
    else if ¬ IsSymbol sym then s.raise .badSymbol (sym.setWidth 48) cmd
    else
      match s.findLeaf ni.toNat sym with
      | some j => s.raise .dupSymbol (dupDetail j sym) cmd
      | none   => (s.writeNode ni.toNat (.leaf sym)).respond .ok 0

/-- LDINT (R112): load one internal node; a child may be NULL, and its kind is not checked. -/
def execLdint (ni left right : NodeIx) (s : State) : Answer :=
  let cmd := encode (.ldint ni left right)
  s.unlessFaulted <|
    if s.params.nNode ≤ ni.toNat then s.raise .badIndex (indexDetail 0 ni) cmd
    else if BadChild s.params left then s.raise .badIndex (indexDetail 1 left) cmd
    else if BadChild s.params right then s.raise .badIndex (indexDetail 2 right) cmd
    else (s.writeNode ni.toNat (.internal left right)).respond .ok 0

/-- SETROOT (R113): select the tree root; the kind of the node is not checked. -/
def execSetroot (ni : NodeIx) (s : State) : Answer :=
  s.unlessFaulted <|
    if s.params.nNode ≤ ni.toNat then s.raise .badIndex (indexDetail 0 ni) (encode (.setroot ni))
    else ({ s with root := ni } : State).respond .ok 0

end Sys2Proof.Machine
end

