-- ==== Sys2Proof/Machine/Dispatch.lean ====
section
/-! DEFINITION. One arm per command: the meaning of each (spec/opcode_table.json). -/

namespace Sys2Proof.Machine

def exec (i : Instr) (s : State) : Host.Outcome State Fault Refusal :=
  match i with
  | .nop => Sys2Proof.Machine.execNop s
  | .srst => Sys2Proof.Machine.execSrst s
  | .ldct cti len code sym => Sys2Proof.Machine.execLdct cti len code sym s
  | .ldleaf ni sym => Sys2Proof.Machine.execLdleaf ni sym s
  | .ldint ni left right => Sys2Proof.Machine.execLdint ni left right s
  | .setroot ni => Sys2Proof.Machine.execSetroot ni s
  | .enc sym => Sys2Proof.Machine.execEnc sym s
  | .putbits cnt data => Sys2Proof.Machine.execPutbits cnt data s
  | .dec => Sys2Proof.Machine.execDec s
  | .hexrd => Sys2Proof.Machine.execHexrd s
  | .bsclr => Sys2Proof.Machine.execBsclr s
  | .decrw => Sys2Proof.Machine.execDecrw s
  | .hexrw => Sys2Proof.Machine.execHexrw s
  | .stat sel => Sys2Proof.Machine.execStat sel s

end Sys2Proof.Machine
end

