-- ==== Sys2Proof/Machine/Interface.lean ====
section
/-! DEFINITION. The host interface (spec/30_encoding.md R80, R81; spec/70_reset_and_hazards.md R260,
R269, R270): the output signals, accepting a command, executing it as one atomic step, handing over
its response, and hardware reset. Also the block as the spec's own transition
`step : State → Cmd → State × Rsp` (R81, decision D1). The model has no time (R268): a step is one event
of the handshake, not a clock cycle (assumption log 6). -/

namespace Sys2Proof.Machine

/-- A word that spells no command (R83, R94, R221): ILLEGAL_CMD, checked before anything else, or the
refusal while the block is faulted. -/
def execIllegal (w : CmdWord) (s : State) : Answer :=
  s.unlessFaulted <| s.raise .illegalCmd 0 w

/-- The execution of an accepted command word: one atomic step (R63). -/
def executeWord (w : CmdWord) (s : State) : Answer :=
  match decode w with
  | .ok i    => exec i s
  | .error _ => execIllegal w s

namespace State

/-- What the host drives now. -/
def driveNow (s : State) : HostDrive := s.drive.headD .quiet

/-- The same state with the host's next drive at the front. -/
def nextDrive (s : State) : State := { s with drive := s.drive.tail }

/-- `cmd_ready` (R80, R81): no command is outstanding and reset is not asserted (R260). -/
def cmdReady (s : State) : Bool := s.driveNow.rstN && s.txn == .idle

/-- `rsp_valid` with `rsp_data` (R80, R81): the response offered, if one is; none while reset is
asserted (R260). -/
def rspOffered (s : State) : Option RspWord :=
  match s.txn with
  | .answered r => if s.driveNow.rstN then some r else none
  | _           => none

/-- The `fault` output: a level equal to FAULTED (R80, R238). -/
def faultOut (s : State) : Bool := s.faulted

end State

/-- One event at the interface. Reset wins over an outstanding command or response, which is dropped
(R235, R260). Otherwise an idle block takes the command the host offers, an accepted command executes,
and an offered response leaves when the host takes it; a block that is offered nothing, or whose response
is not taken, stays as it is (R270). -/
def interfaceStep (s : State) : Answer :=
  let d := s.driveNow
  let s' := s.nextDrive
  if d.rstN then
    match s.txn with
    | .idle =>
      match d.cmd with
      | some w => .next { s' with txn := .accepted w }
      | none   => .next s'
    | .accepted w => executeWord w s'
    | .answered _ => .next (if d.rspReady then { s' with txn := .idle } else s')
  else .next s'.clear

/-- The spec's own transition, `step : State → Cmd → State × Rsp` (R81): a command and its response as
one step. `none` would be a command without a response; there is no such command. -/
def transact (s : State) (w : CmdWord) : Option (State × RspWord) :=
  match executeWord w s with
  | .next t =>
    match t.txn with
    | .answered r => some ({ t with txn := .idle }, r)
    | _           => none
  | _ => none

/-- A run (R269): commands one after the other, with their responses in command order. -/
def runWords (s : State) : List CmdWord → Option (State × List RspWord)
  | []      => some (s, [])
  | w :: ws =>
    match transact s w with
    | none        => none
    | some (t, r) =>
      match runWords t ws with
      | none         => none
      | some (u, rs) => some (u, r :: rs)

end Sys2Proof.Machine
end

