-- ==== Sys2Proof/Machine/Step.lean ====
section
/-! DEFINITION. One step of the machine, and the state whose next step runs a given command. -/

namespace Sys2Proof.Machine

/-- One step: one event at the host interface (R81, R268). -/
def step (s : State) : Host.Outcome State Fault Refusal := interfaceStep s

/-- `s` with the command of `nbits` bits and value `w` accepted and about to execute: the block fetches
no instructions (spec/10_state.md R35), its commands arrive from the host, and this stands for that
arrival (assumption log 5). The host drives nothing during that step. -/
def State.withFetchWord (s : State) (nbits w : Nat) : State :=
  { s with txn   := .accepted (BitVec.ofNat 64 (w % 2 ^ nbits))
           drive := .quiet :: s.drive }

end Sys2Proof.Machine
end

