-- ==== Sys2Proof/Machine/Assembler.lean ====
section
/-! DEFINITION. The assembly language of spec/30_encoding.md R99 and R100: one line of text to the
commands it stands for. One command a line, the mnemonic, then operands separated by commas, `;` starts a
comment; the pseudo-instructions ENCS, REWIND and PUTHEX expand to commands. What the rules leave open about
the text of a line is the model's choice, assumption log 7 and 11. -/

namespace Sys2Proof.Machine.Asm

/-- Why a line is refused (R99). -/
inductive AsmError where
  /-- no command or pseudo-instruction of this name -/
  | unknownMnemonic
  /-- the operands have not the form or number the command asks for -/
  | badOperand
  /-- a bit string of length 0 or longer than the field allows (R99) -/
  | badBitString
  /-- a number that the field has no bits for (assumption log 7) -/
  | tooWide
  deriving DecidableEq, Repr

/-- The text of one operand. -/
abbrev Text := List Char

/-- Cut a line into its comma-separated pieces, without the comment. A comma, a semicolon or a space
inside `'c'` or `"…"` is text, and every double quote outside `'c'` opens or closes a `"…"` (the model's
choice, assumption log 11). `seen` is the current piece, last character first. -/
def pieces (inString : Bool) (seen : Text) : Text → List Text
  | []                        => [seen.reverse]
  | '"' :: cs                 => pieces (!inString) ('"' :: seen) cs
  | '\'' :: c :: '\'' :: cs   =>
    if inString then pieces true ('\'' :: seen) (c :: '\'' :: cs)
    else pieces false ('\'' :: c :: '\'' :: seen) cs
  | c :: cs                   =>
    if inString then pieces true (c :: seen) cs
    else if c = ';' then [seen.reverse]
    else if c = ',' then seen.reverse :: pieces false [] cs
    else pieces false (c :: seen) cs

/-- Without leading and trailing spaces. -/
def trim (t : Text) : Text :=
  ((t.dropWhile (· == ' ')).reverse.dropWhile (· == ' ')).reverse

/-- The value whose HexDigit (R162) a character is, a letter in either case (assumption log 7). -/
def hexValue (c : Char) : Option Nat :=
  (List.range 16).find? fun v => (hexDigit (BitVec.ofNat 4 v)).toNat == c.toUpper.toNat

/-- A numeral in a base: at least one digit, each below the base. -/
def numeral (base : Nat) (t : Text) : Except AsmError Nat :=
  match t with
  | [] => .error .badOperand
  | _  =>
    t.foldlM (init := 0) fun v c =>
      match hexValue c with
      | some d => if d < base then .ok (v * base + d) else .error .badOperand
      | none   => .error .badOperand

/-- A decimal or `0x` number (R99). -/
def number (t : Text) : Except AsmError Nat :=
  match t with
  | '0' :: 'x' :: ds => numeral 16 ds
  | ds               => numeral 10 ds

/-- A value as a field of `w` bits, encoded as written where it fits. -/
def fit (w v : Nat) : Except AsmError (BitVec w) :=
  if v < 2 ^ w then .ok (BitVec.ofNat w v) else .error .tooWide

/-- *sym*: `U+XXXX`, or `'c'` for the code point of one character (R99). One or more digits may follow `U+`
(the model's choice, assumption log 11). -/
def symbol (t : Text) : Except AsmError Sym := do
  match t with
  | 'U' :: '+' :: ds => fit 21 (← numeral 16 ds)
  | ['\'', c, '\'']  => fit 21 c.toNat
  | _                => .error .badOperand

/-- *idx*: a number (R99). -/
def index (w : Nat) (t : Text) : Except AsmError (BitVec w) := do
  fit w (← number t)

/-- *idx* of a child: a number, or `-` for NULL (R99). -/
def child (t : Text) : Except AsmError NodeIx :=
  match t with
  | ['-'] => .ok nullIx
  | _     => index 10 t

/-- *sel*: a number 0 to 15, or a register's name (R99). -/
def selector (t : Text) : Except AsmError (BitVec 4) :=
  match String.ofList t with
  | "BS_LEN"  => .ok (statSel .bsLen)
  | "DEC_POS" => .ok (statSel .decPos)
  | "HX_IDX"  => .ok (statSel .hxIdx)
  | "ROOT"    => .ok (statSel .root)
  | "FCAUSE"  => .ok (statSel .fcause)
  | "FINFO"   => .ok (statSel .finfo)
  | "FCMD_HI" => .ok (statSel .fcmdHi)
  | "FCMD_LO" => .ok (statSel .fcmdLo)
  | "N_SYM"   => .ok (statSel .nSym)
  | "N_NODE"  => .ok (statSel .nNode)
  | "MAX_LEN" => .ok (statSel .maxLen)
  | "BS_CAP"  => .ok (statSel .bsCap)
  | _         => index 4 t

/-- The text between the first and the last double quote of an operand that begins and ends with one. A double
quote between them is text: the operand `"a"b"` is the three characters a, quote, b (the model's choice,
assumption log 11: R99 and R100 do not say). -/
def quoted (t : Text) : Except AsmError Text :=
  match t with
  | '"' :: cs => if cs.getLast? = some '"' then .ok cs.dropLast else .error .badOperand
  | _         => .error .badOperand

/-- *bits*: a quoted string of `0` and `1`, the first character element 0 (R99). -/
def bits (t : Text) : Except AsmError (List Bool) := do
  (← quoted t).mapM fun c =>
    if c = '0' then .ok false else if c = '1' then .ok true else .error .badOperand

/-- LEN or CNT and CODE or DATA for a bit string (R10, R99): its length, and the number it spells;
refused where it is empty or longer than `most`. -/
def stringField (most lenBits width : Nat) (bs : List Bool) :
    Except AsmError (BitVec lenBits × BitVec width) :=
  if bs.length = 0 ∨ most < bs.length then .error .badBitString
  else .ok (BitVec.ofNat lenBits bs.length, BitVec.ofNat width (bitsValue bs))

/-- LDCT of a bit string (R99). -/
def ldctOf (cti : BitVec 8) (sym : Sym) (bs : List Bool) : Except AsmError Instr := do
  let (len, code) ← stringField 26 5 26 bs
  return .ldct cti len code sym

/-- PUTBITS of a bit string (R99). -/
def putbitsOf (bs : List Bool) : Except AsmError Instr := do
  let (cnt, data) ← stringField 32 6 32 bs
  return .putbits cnt data

/-- ENCS: one ENC per code point of the text, in order (R100). -/
def encs (text : Text) : Except AsmError (List Instr) :=
  text.mapM fun c => do return .enc (← fit 21 c.toNat)

/-- REWIND: DECRW, then HEXRW (R100). -/
def rewind : List Instr := [.decrw, .hexrw]

/-- PUTHEX: one PUTBITS per digit, the digit's four bits most significant first (R100, decision D9). -/
def puthex (digits : List (BitVec 4)) : List Instr :=
  digits.map fun d => .putbits 4 (d.setWidth 32)

/-- The digits of a PUTHEX operand. -/
def hexDigits (t : Text) : Except AsmError (List (BitVec 4)) :=
  t.mapM fun c =>
    match hexValue c with
    | some d => .ok (BitVec.ofNat 4 d)
    | none   => .error .badOperand

/-- The commands of a mnemonic and its operands (R99, R100). The mnemonic is in capitals, as the rules write
it (the model's choice, assumption log 11). -/
def assemble (name : String) (ops : List Text) : Except AsmError (List Instr) :=
  match name, ops with
  | "NOP", []               => .ok [.nop]
  | "SRST", []              => .ok [.srst]
  | "LDCT", [cti, sym, bs]  => do return [← ldctOf (← index 8 cti) (← symbol sym) (← bits bs)]
  | "LDLEAF", [ni, sym]     => do return [.ldleaf (← index 10 ni) (← symbol sym)]
  | "LDINT", [ni, l, r]     => do return [.ldint (← index 10 ni) (← child l) (← child r)]
  | "SETROOT", [ni]         => do return [.setroot (← index 10 ni)]
  | "ENC", [sym]            => do return [.enc (← symbol sym)]
  | "PUTBITS", [bs]         => do return [← putbitsOf (← bits bs)]
  | "DEC", []               => .ok [.dec]
  | "HEXRD", []             => .ok [.hexrd]
  | "BSCLR", []             => .ok [.bsclr]
  | "DECRW", []             => .ok [.decrw]
  | "HEXRW", []             => .ok [.hexrw]
  | "STAT", [sel]           => do return [.stat (← selector sel)]
  | "ENCS", [text]          => do encs (← quoted text)
  | "REWIND", []            => .ok rewind
  | "PUTHEX", [ds]          => do return puthex (← hexDigits (← quoted ds))
  | name, _                 =>
    if name ∈ ["NOP", "SRST", "LDCT", "LDLEAF", "LDINT", "SETROOT", "ENC", "PUTBITS", "DEC", "HEXRD",
        "BSCLR", "DECRW", "HEXRW", "STAT", "ENCS", "REWIND", "PUTHEX"]
    then .error .badOperand else .error .unknownMnemonic

/-- The commands of one line of assembly text; an empty line and a comment stand for none. A comma between the
mnemonic and the first operand is dropped: `SETROOT ,5` and `SETROOT,5` are `SETROOT 5`; any other empty
operand is refused (the model's choice, assumption log 11: R99 does not say). -/
def line (text : String) : Except AsmError (List Instr) :=
  match pieces false [] text.toList with
  | []           => .ok []
  | head :: tail =>
    let head := trim head
    let name := head.takeWhile (· != ' ')
    let first := trim (head.dropWhile (· != ' '))
    let ops := (if first = [] then [] else [first]) ++ tail.map trim
    if name = [] ∧ tail = [] then .ok [] else assemble (String.ofList name) ops

end Sys2Proof.Machine.Asm
end

