-- ==== Sys2Proof/Machine/HostUse.lean ====
section
/-! DEFINITION. The host's side of the block, where the spec fixes it: how a source tree and code table are
loaded (spec/40_tables.md R114), when the two tables agree (R115), and the order of use
(spec/70_reset_and_hazards.md R262). The host builds the tree and the codes itself (R5). -/

namespace Sys2Proof.Machine

/-- A source tree of the host (spec §3 TreeNode), each leaf with the code-table index and each node with
the node-table index the host gives it (R114). -/
inductive HostTree where
  | leaf (cti : BitVec 8) (ni : NodeIx) (sym : Sym)
  | fork (ni : NodeIx) (left right : HostTree)
  deriving DecidableEq, Repr

namespace HostTree

/-- The node-table index of the tree's root. -/
def index : HostTree → NodeIx
  | .leaf _ ni _ => ni
  | .fork ni _ _ => ni

/-- k, the number of leaves. -/
def leaves : HostTree → Nat
  | .leaf _ _ _   => 1
  | .fork _ l r   => l.leaves + r.leaves

/-- The number of nodes. -/
def nodes : HostTree → Nat
  | .leaf _ _ _   => 1
  | .fork _ l r   => l.nodes + r.nodes + 1

/-- The code-table indices of the leaves, left to right. -/
def ctis : HostTree → List (BitVec 8)
  | .leaf cti _ _ => [cti]
  | .fork _ l r   => l.ctis ++ r.ctis

/-- The symbols of the leaves, left to right. -/
def symbols : HostTree → List Sym
  | .leaf _ _ sym => [sym]
  | .fork _ l r   => l.symbols ++ r.symbols

/-- The node-table indices of all nodes. -/
def indices : HostTree → List NodeIx
  | .leaf _ ni _ => [ni]
  | .fork ni l r => l.indices ++ r.indices ++ [ni]

/-- The length of the longest code. -/
def depth : HostTree → Nat
  | .leaf _ _ _   => 0
  | .fork _ l r   => max l.depth r.depth + 1

/-- The path from the root to the leaf that holds a symbol, 0 for left and 1 for right (R13). -/
def pathTo (sym : Sym) : HostTree → Option (List Bool)
  | .leaf _ _ own => if own = sym then some [] else none
  | .fork _ l r   => (l.pathTo sym).map (false :: ·) <|> (r.pathTo sym).map (true :: ·)

/-- The code of a symbol: the path to its leaf, or the single bit 0 in a tree of one symbol (R13,
R114). -/
def code (sym : Sym) : HostTree → Option (List Bool)
  | .leaf _ _ own => if own = sym then some [false] else none
  | .fork ni l r  => (HostTree.fork ni l r).pathTo sym

/-- The tree can be loaded into a block with parameters `p`: indices in range and distinct, symbols legal
and distinct, and no path longer than MAX_LEN (R110 to R112, R266); for one symbol, `parent` is a second
node-table index in range (R114). -/
structure Fits (p : Params) (parent : NodeIx) (tree : HostTree) : Prop where
  ctis_lt        : ∀ c ∈ tree.ctis, c.toNat < p.nSym
  indices_lt     : ∀ n ∈ tree.indices, n.toNat < p.nNode
  symbols_legal  : ∀ x ∈ tree.symbols, IsSymbol x
  ctis_nodup     : tree.ctis.Nodup
  indices_nodup  : tree.indices.Nodup
  symbols_nodup  : tree.symbols.Nodup
  depth_le       : tree.depth ≤ p.maxLen
  parent_lt      : tree.leaves = 1 → parent.toNat < p.nNode ∧ parent ∉ tree.indices

/-- One LDCT per leaf: its code is the path to it, 0 for left and 1 for right (R13, R114). -/
def loadCodes (path : List Bool) : HostTree → List Instr
  | .leaf cti _ sym =>
    [.ldct cti (BitVec.ofNat 5 path.length) (BitVec.ofNat 26 (bitsValue path)) sym]
  | .fork _ l r     => l.loadCodes (path ++ [false]) ++ r.loadCodes (path ++ [true])

/-- One LDLEAF per leaf and one LDINT per internal node (R114). -/
def loadNodes : HostTree → List Instr
  | .leaf _ ni sym => [.ldleaf ni sym]
  | .fork ni l r   => l.loadNodes ++ r.loadNodes ++ [.ldint ni l.index r.index]

/-- The commands that load a tree and its codes (R114). For one symbol the code is the single bit 0, and
the leaf gets the synthetic parent `parent` with a NULL right child; otherwise `parent` is not used. Listed in
one order; the host may issue them in any (R262, assumption log 10). -/
def load (parent : NodeIx) : HostTree → List Instr
  | .leaf cti ni sym =>
    [.ldct cti 1 0 sym, .ldleaf ni sym, .ldint parent ni nullIx, .setroot parent]
  | .fork ni l r     =>
    (HostTree.fork ni l r).loadCodes [] ++ (HostTree.fork ni l r).loadNodes ++ [.setroot ni]

end HostTree

/-- R262's use sequence up to the last ENC: reset, the commands that load the tables, one ENC per symbol in
order; the host then issues HEXRD until END and DEC until END, in either order. -/
def useSequence (tables : List Instr) (text : List Sym) : List Instr :=
  .srst :: tables ++ text.map .enc

/-- The symbols a list of commands encodes, in order. -/
def encodedText (is : List Instr) : List Sym :=
  is.filterMap fun i => match i with | .enc sym => some sym | _ => none

namespace State

/-- Walking `bits` from node `cur` passes INTERNAL nodes only and stands on `cur'` at the end. -/
def Passes (s : State) : NodeIx → List Bool → NodeIx → Prop
  | cur, [], cur'         => cur = cur'
  | cur, bit :: rest, cur' =>
    let nxt := (s.nodeAt cur.toNat).child bit
    (∃ l r, s.childNode nxt = .internal l r) ∧ s.Passes nxt rest cur'

/-- Walking `bits` from node `cur` passes INTERNAL nodes with valid children for all bits but the last,
and the last bit reaches a LEAF that holds `sym` (R115). -/
def LeadsTo (s : State) (cur : NodeIx) (bits : List Bool) (sym : Sym) : Prop :=
  ∃ before bit cur', bits = before ++ [bit] ∧ s.Passes cur before cur' ∧
    s.childNode ((s.nodeAt cur'.toNat).child bit) = .leaf sym

/-- The code table is consistent with the tree at ROOT (R115): the path of every code leads to a LEAF that
holds its symbol, and every LEAF reachable from ROOT, ROOT itself among them, holds the symbol of a
valid entry. A host duty: the block never checks it (R266). -/
def Consistent (s : State) : Prop :=
  (∀ i sym len code, i < s.params.nSym → s.ctAt i = .valid sym len code →
    s.LeadsTo s.root (bitString len.toNat code) sym) ∧
  (∀ sym, (s.nodeAt s.root.toNat = .leaf sym ∨ ∃ bits, s.LeadsTo s.root bits sym) →
    ∃ i, i < s.params.nSym ∧ (s.ctAt i).sym? = some sym)

end State

end Sys2Proof.Machine
end

