-- ==== Sys2Proof/Safety.lean ====
section
/-! DEFINITION. What the statements are about: the invariants of spec/10_state.md R38 to R40 with the
well-formedness of the stored data, what "this command faults" and "this command is refused" mean as a
state, and what counts as a safe run (spec/70_reset_and_hazards.md R269). -/

namespace Sys2Proof.Machine

namespace State

/-- R38's invariants, as they stand there. -/
structure PositionsInRange (s : State) : Prop where
  len_le_cap   : s.bsLen.toNat ≤ s.params.bsCap
  dec_le_len   : s.decPos.toNat ≤ s.bsLen.toNat
  hex_le_len   : 4 * s.hxIdx.toNat ≤ s.bsLen.toNat + 3
  cause_iff    : s.fcause = 0 ↔ s.faulted = false

/-- No two valid code-table entries hold the same symbol (R39). -/
abbrev CodesUnique (s : State) : Prop :=
  ∀ i < s.params.nSym, ∀ j < s.params.nSym,
    (s.ctAt i).sym? ≠ none → (s.ctAt i).sym? = (s.ctAt j).sym? → i = j

/-- No two LEAF nodes hold the same symbol (R40). -/
abbrev LeavesUnique (s : State) : Prop :=
  ∀ i < s.params.nNode, ∀ j < s.params.nNode,
    (s.nodeAt i).sym? ≠ none → (s.nodeAt i).sym? = (s.nodeAt j).sym? → i = j

/-- The storage has its one canonical form: one place per table entry, and the buffer holds exactly the
bits below BS_LEN (R21, R22, R24, R30). -/
abbrev StorageWf (s : State) : Prop :=
  s.ct.length = s.params.nSym ∧ s.node.length = s.params.nNode ∧ s.bs.length = s.bsLen.toNat

end State

/-- A stored code-table entry: a symbol, a length 1 … MAX_LEN and a code with no bit at or above it
(R21). -/
abbrev CtEntry.Stored (p : Params) : CtEntry → Prop
  | .invalid            => True
  | .valid sym len code => IsSymbol sym ∧ ¬ BadCodeLength p len code

/-- A stored node: a LEAF holds a symbol, a child is NULL or names an entry (R30, R31). -/
abbrev Node.Stored (p : Params) : Node → Prop
  | .empty               => True
  | .leaf sym            => IsSymbol sym
  | .internal left right => ¬ BadChild p left ∧ ¬ BadChild p right

/-- The invariant of the block: what holds after reset and after every step. -/
structure State.Inv (s : State) : Prop where
  params_legal  : s.params.Legal
  storage       : s.StorageWf
  positions     : s.PositionsInRange
  codes_unique  : s.CodesUnique
  leaves_unique : s.LeavesUnique
  codes_stored  : ∀ e ∈ s.ct, e.Stored s.params
  nodes_stored  : ∀ n ∈ s.node, n.Stored s.params
  root_stored   : s.root = nullIx ∨ s.root.toNat < s.params.nNode
  cause_known   : s.fcause.toNat ≤ 10
  record_clear  : s.faulted = false → s.finfo = 0 ∧ s.fcmd = 0

/-- The word `w`, executed in `s`, faults with the cause code and the detail given: the state is `s` but
for FAULTED, FCAUSE, FINFO, FCMD and the response FAULT (R232). -/
abbrev WordFaults (w : CmdWord) (s : State) (cause : BitVec 4) (info : Detail) : Prop :=
  executeWord w s =
    .next { s with faulted := true, fcause := cause, finfo := info, fcmd := w,
                   txn := .answered (0x2#4 ++ cause ++ 0#56) }

/-- The same of a command. -/
abbrev CommandFaults (i : Instr) (s : State) (cause : BitVec 4) (info : Detail) : Prop :=
  exec i s =
    .next { s with faulted := true, fcause := cause, finfo := info, fcmd := encode i,
                   txn := .answered (0x2#4 ++ cause ++ 0#56) }

/-- The word `w`, executed in `s`, is refused: nothing changes, and the response is FAULTED with the held
cause (R233). -/
abbrev WordRefused (w : CmdWord) (s : State) : Prop :=
  executeWord w s = .next { s with txn := .answered (0x3#4 ++ s.fcause ++ 0#56) }

/-- A safe run: the commands `is`, one after the other from `s`, end in `t` with no fault on the way
(R269). A fault on the way would still be there at the end (R233), since none of the lists this is used
for has an SRST after its first command. -/
abbrev RunsSafely (s : State) (is : List Instr) (t : State) (rs : List RspWord) : Prop :=
  runWords s (is.map encode) = some (t, rs) ∧ t.faulted = false

/-- A command that may stand between the ENCs of `text` without changing what they append (R141): it writes no
bit of the buffer but by ENC, and it loads no code for a symbol of `text` and none over the entry that
holds one in `s`. -/
def State.KeepsCodes (s : State) (text : List Sym) : Instr → Prop
  | .srst | .bsclr | .putbits _ _ => False
  | .ldct cti _ _ sym             => sym ∉ text ∧ ∀ x ∈ text, (s.ctAt cti.toNat).sym? ≠ some x
  | .nop | .ldleaf _ _ | .ldint _ _ _ | .setroot _ | .enc _ | .dec | .hexrd | .decrw | .hexrw
  | .stat _                       => True

/-- The responses are the digits of the HexString of `stream`, in order: one OK response per group of four
bits, with the group's value, the last group padded with 0, and the code of its digit (R160, R163). -/
def IsHexString (stream : List Bool) (digits : List RspWord) : Prop :=
  digits.length = (stream.length + 3) / 4 ∧
  ∀ g < digits.length, ∃ (v : BitVec 4) (r : RspWord), digits[g]? = some r ∧ rspStatus r = 0 ∧
    (∀ k < 4, v.getLsbD (3 - k) = stream.getD (4 * g + k) false) ∧
    r.extractLsb 11 8 = v ∧ r.extractLsb 7 0 = hexDigit v

/-- What the host drives to issue the commands `ws` one after the other over the handshake of R81: offer
a command, wait for it to execute, take the response. -/
def handshake (ws : List CmdWord) : List HostDrive :=
  ws.flatMap fun w => [⟨true, some w, false⟩, .quiet, ⟨true, none, true⟩]

/-- The responses that transfer in the next `n` steps: `rsp_valid` and `rsp_ready` both 1 (R80). -/
def transferred : Nat → State → List RspWord
  | 0, _     => []
  | n + 1, s =>
    (if s.driveNow.rspReady then s.rspOffered.toList else []) ++
      match step s with
      | .next t => transferred n t
      | _       => []

end Sys2Proof.Machine
end

