-- ==== Sys2Proof/Certificates/Slice0/Obligations.lean ====
section
/-! DEFINITION. The statements for the provers, each a rule of spec/ or a property the rules add up to. They
are about every configuration: the parameters are part of the state (spec/00_scope.md R6). Where a
statement needs the invariant `State.Inv`, that every step keeps it is a statement too. -/

open Sys2Proof Sys2Proof.Machine

/-! ## Encoding (spec/30_encoding.md) -/

/-- Command words of spec/95_test_vectors.md, one or more of each family, decode to the commands they are
listed for (R84 to R93). -/
def Obligations.ListedWordsDecodeToTheirCommands : Prop :=
  decode 0x202100000020006C#64 = .ok (.ldct 2 2 0b01 0x6C) ∧
  decode 0x400800000000006C#64 = .ok (.ldleaf 2 0x6C) ∧
  decode 0x50400E03C0000000#64 = .ok (.ldint 16 14 15) ∧
  decode 0x6040000000000000#64 = .ok (.setroot 16) ∧
  decode 0x7000000000000061#64 = .ok (.enc 0x61) ∧
  decode 0x8000000300000005#64 = .ok (.putbits 3 0b101) ∧
  decode 0x9000000000000000#64 = .ok .dec ∧
  decode 0xA000000000000000#64 = .ok .hexrd ∧
  decode 0xE000000000000004#64 = .ok (.stat 4) ∧
  decode 0x3000000000000000#64 = .error .reservedOpcode ∧
  decode 0xF000000000000000#64 = .error .reservedOpcode ∧
  decode 0x1000000000000001#64 = .error .reservedBits

/-- Every command, with every value of every field, is read back from its word (R84 to R92). -/
def Obligations.DecodeOfEncodeGivesTheCommand : Prop :=
  ∀ i : Instr, decode (encode i) = .ok i

/-- A word that spells a command is that command's word: no bit of it is dropped (R83 to R92). -/
def Obligations.EncodeOfDecodeGivesTheWord : Prop :=
  ∀ (w : CmdWord) (i : Instr), decode w = .ok i → encode i = w

/-- R94: a word spells a command exactly when it matches that command's row of R93's match and mask table,
at most one row matches, and a word that matches none is illegal. -/
def Obligations.WordSpellsCommandExactlyWhenItMatchesItsRow : Prop :=
  ∀ w : CmdWord,
    (∀ r ∈ opcodeTable, (∃ i, decode w = .ok i ∧ i.mnemonic = r.mnemonic) ↔ w &&& r.mask = r.pattern) ∧
    (∀ r ∈ opcodeTable, ∀ r' ∈ opcodeTable,
      w &&& r.mask = r.pattern → w &&& r'.mask = r'.pattern → r = r') ∧
    ((∃ e, decode w = .error e) ↔ ∀ r ∈ opcodeTable, ¬ w &&& r.mask = r.pattern) ∧
    (decode w = .error .reservedOpcode ↔ w.extractLsb 63 60 = 0x3#4 ∨ w.extractLsb 63 60 = 0xF#4)

/-- R83: an illegal word, one that matches no row of R93, faults ILLEGAL_CMD (cause 1, FINFO 0, FCMD the
word) and does nothing else, whatever the state; while the block is faulted it is refused instead. -/
def Obligations.IllegalWordFaultsOrIsRefused : Prop :=
  ∀ (w : CmdWord) (s : State), (∀ r ∈ opcodeTable, ¬ w &&& r.mask = r.pattern) →
    (s.faulted = false → WordFaults w s 1 0) ∧ (s.faulted = true → WordRefused w s)

/-! ## The host interface and reset (spec/30_encoding.md, spec/70_reset_and_hazards.md) -/

/-- An accepted word that spells a command runs as that command, in one step (R63), with the host's drive
moved on; one that spells none takes the illegal-command path; reset not asserted. (That the very next step
executes it, and that a step uses one entry of the drive, is the model's choice, assumption log 6: R81
leaves the delay open.) -/
def Obligations.StepRunsTheAcceptedCommand : Prop :=
  ∀ (s : State) (w : CmdWord), s.txn = .accepted w → s.driveNow.rstN = true →
    (∀ i, decode w = .ok i → step s = exec i { s with drive := s.drive.tail }) ∧
    (∀ e, decode w = .error e → step s = execIllegal w { s with drive := s.drive.tail })

/-- What the step does around a command: an idle block takes an offered command and is not ready until its
response has left; an offered response waits for `rsp_ready`; a block that is offered nothing stays as it
is (R80, R81, R270). (One event a step is the model's choice, assumption log 6.) -/
def Obligations.HandshakeMovesOneTransactionAtATime : Prop :=
  ∀ s : State, s.driveNow.rstN = true →
    (s.cmdReady = true ↔ s.txn = .idle) ∧
    (∀ w, s.txn = .idle → s.driveNow.cmd = some w →
      step s = .next { s with txn := .accepted w, drive := s.drive.tail }) ∧
    (s.txn = .idle → s.driveNow.cmd = none → step s = .next { s with drive := s.drive.tail }) ∧
    (∀ r, s.txn = .answered r → s.rspOffered = some r ∧
      (s.driveNow.rspReady = true → step s = .next { s with txn := .idle, drive := s.drive.tail }) ∧
      (s.driveNow.rspReady = false → step s = .next { s with drive := s.drive.tail }))

/-- R235: reset beats an outstanding command or response, which is dropped with no response; the state after
it is the reset state, whatever the command did. While reset is asserted no command is accepted and no
response offered. -/
def Obligations.ResetWinsOverTheOutstandingCommand : Prop :=
  ∀ s : State, s.driveNow.rstN = false →
    step s = .next { State.resetOf s.params with drive := s.drive.tail } ∧
    s.cmdReady = false ∧ s.rspOffered = none

/-- Any number of commands issued over the handshake, three steps a command, leave the block where the
spec's own transition `State → Cmd → State × Rsp` (R81) leaves it, and the responses that transfer are
that transition's, in command order. (The count of steps is the model's choice, assumption log 6.) -/
def Obligations.HandshakeRefinesTheTransactionModel : Prop :=
  ∀ (ws : List CmdWord) (s t : State) (rs : List RspWord),
    s.txn = .idle → s.drive = [] → runWords s ws = some (t, rs) →
    Sys2Proof.core.run (3 * ws.length) { s with drive := handshake ws } =
      .next { t with txn := .idle } ∧
    transferred (3 * ws.length) { s with drive := handshake ws } = rs

/-- Every command word, legal or not, in every state, executes and yields exactly one response, whose STATUS
is OK, END, FAULT or FAULTED and whose CAUSE is FCAUSE after the command (R81, R95, R96); only DEC and HEXRD
answer END, and then nothing has changed (R95); the parameters stay (R33). There is no hang and no stop
(R183). -/
def Obligations.EveryWordYieldsOneResponse : Prop :=
  ∀ (w : CmdWord) (s : State), ∃ t r, executeWord w s = .next t ∧ t.txn = .answered r ∧
    rspStatus r ≤ 3 ∧ rspCause r = t.fcause ∧ t.params = s.params ∧ t.drive = s.drive ∧
    (rspStatus r = 1 → (decode w = .ok .dec ∨ decode w = .ok .hexrd) ∧
      t = { s with txn := .answered r })

/-- R96: CAUSE is FCAUSE after the command; it is 0 for OK and END but for a STAT that executes while
faulted; for FAULT it is the cause this command raised, for FAULTED the held one. -/
def Obligations.ResponseCarriesTheCauseAfterTheCommand : Prop :=
  ∀ (w : CmdWord) (s t : State) (r : RspWord), s.Inv → executeWord w s = .next t →
    t.txn = .answered r →
    rspCause r = t.fcause ∧
    (rspStatus r = 0 ∨ rspStatus r = 1 →
      rspCause r = 0 ∨ (s.faulted = true ∧ ∃ sel, decode w = .ok (.stat sel))) ∧
    (rspStatus r = 2 → s.faulted = false ∧ t.faulted = true ∧ rspCause r ≠ 0) ∧
    (rspStatus r = 3 → s.faulted = true ∧ rspCause r = s.fcause)

/-! ## State and invariants (spec/10_state.md) -/

/-- R41: what SRST and hardware reset leave: every entry invalid, every node EMPTY, ROOT NULL, the positions
and the fault registers 0, the BitStream empty, the parameters unchanged. (An invalid or EMPTY entry holds
no fields in the model, assumption log 1.) -/
def Obligations.ResetAndSrstLeaveTheResetValues : Prop :=
  ∀ s t : State,
    (s.driveNow.rstN = false ∧ step s = .next t) ∨ exec .srst s = .next t →
    (∀ i, t.ctAt i = .invalid) ∧ (∀ n, t.nodeAt n = .empty) ∧ t.root = 0x3FF ∧ t.bitStream = [] ∧
    t.bsLen = 0 ∧ t.decPos = 0 ∧ t.hxIdx = 0 ∧ t.faulted = false ∧ t.fcause = 0 ∧ t.finfo = 0 ∧
    t.fcmd = 0 ∧ t.params = s.params

/-- Right after reset, in every legal configuration, the invariant holds. -/
def Obligations.ResetStateSatisfiesTheInvariant : Prop :=
  (∀ p : Params, p.Legal → (State.resetOf p).Inv) ∧ State.reset.Inv

/-- Every step keeps the invariant: the storage stays in its canonical form, the positions stay in range,
stored codes and nodes stay legal, symbols stay unique, and FCAUSE is 0 exactly when FAULTED is. -/
def Obligations.StepKeepsTheInvariant : Prop :=
  ∀ s t : State, s.Inv → step s = .next t → t.Inv

/-- R38: its four invariants hold after reset and after every command. They need nothing of the rest of the
state. -/
def Obligations.PositionsStayInRange : Prop :=
  (∀ p : Params, (State.resetOf p).PositionsInRange) ∧
  ∀ (w : CmdWord) (s t : State), s.params.Legal → s.PositionsInRange →
    executeWord w s = .next t → t.PositionsInRange

/-- Which command writes what: the code table is written by LDCT alone, NODE by LDLEAF and LDINT, ROOT by
SETROOT, the BitStream and BS_LEN by ENC, PUTBITS and BSCLR, DEC_POS by DEC, DECRW and BSCLR, HX_IDX by
HEXRD, HEXRW and BSCLR, the fault registers by fault entry, and everything by SRST; no command writes
the parameters (R21 to R33). -/
def Obligations.EachCommandWritesOnlyItsState : Prop :=
  ∀ (i : Instr) (s t : State), exec i s = .next t → i ≠ .srst →
    t.params = s.params ∧ t.drive = s.drive ∧
    ((∀ a b c d, i ≠ .ldct a b c d) → t.ct = s.ct) ∧
    ((∀ a b, i ≠ .ldleaf a b) → (∀ a b c, i ≠ .ldint a b c) → t.node = s.node) ∧
    ((∀ a, i ≠ .setroot a) → t.root = s.root) ∧
    ((∀ a, i ≠ .enc a) → (∀ a b, i ≠ .putbits a b) → i ≠ .bsclr →
      t.bs = s.bs ∧ t.bsLen = s.bsLen) ∧
    (i ≠ .dec → i ≠ .decrw → i ≠ .bsclr → t.decPos = s.decPos) ∧
    (i ≠ .hexrd → i ≠ .hexrw → i ≠ .bsclr → t.hxIdx = s.hxIdx) ∧
    (s.faulted = true ∨ t.faulted = false →
      t.faulted = s.faulted ∧ t.fcause = s.fcause ∧ t.finfo = s.finfo ∧ t.fcmd = s.fcmd)

/-- No command writes a bit below BS_LEN: unless it empties the stream (BSCLR, SRST), the BitStream after a
command begins with the BitStream before it (R22). -/
def Obligations.BitStreamOnlyGrowsAtItsEnd : Prop :=
  ∀ (i : Instr) (s t : State), s.Inv → exec i s = .next t → i ≠ .bsclr → i ≠ .srst →
    s.bitStream <+: t.bitStream

/-! ## Faults (spec/60_exceptions.md) -/

/-- R232: fault entry. A command that raises a fault changes nothing of the block but FAULTED, FCAUSE, FINFO
and FCMD, which holds its word; the response is FAULT with the cause and DATA 0; `fault` is high. -/
def Obligations.FaultEntryChangesOnlyTheFaultRecord : Prop :=
  ∀ (w : CmdWord) (s t : State), s.faulted = false → executeWord w s = .next t → t.faulted = true →
    t.faultOut = true ∧ ∃ (c : FaultCause) (info : Detail), WordFaults w s c.code info

/-- R233: while the block is faulted, every word but a legal SRST and a legal STAT is refused: no effect, and
the response is FAULTED with the held cause and DATA 0. -/
def Obligations.FaultedBlockRefusesAllButSrstAndStat : Prop :=
  ∀ (w : CmdWord) (s : State), s.faulted = true → w ≠ encode .srst →
    (∀ sel : BitVec 4, sel.toNat < 12 → w ≠ encode (.stat sel)) → WordRefused w s

/-- The faulted state is left only by SRST or hardware reset, and until then the fault record is kept (R27,
R236). -/
def Obligations.OnlySrstOrResetLeavesTheFaultedState : Prop :=
  ∀ s t : State, s.faulted = true → step s = .next t → s.driveNow.rstN = true →
    s.txn ≠ .accepted (encode .srst) →
    t.faulted = true ∧ t.fcause = s.fcause ∧ t.finfo = s.finfo ∧ t.fcmd = s.fcmd

/-! ## Table loading (spec/40_tables.md) -/

/-- LDCT with legal operands and no other entry holding the symbol stores the entry and responds OK; every
other entry and everything else stays (R110). -/
def Obligations.LdctStoresTheEntry : Prop :=
  ∀ (s : State) (cti : BitVec 8) (len : BitVec 5) (code : CodeBits) (sym : Sym),
    s.Inv → s.faulted = false → cti.toNat < s.params.nSym →
    1 ≤ len.toNat → len.toNat ≤ s.params.maxLen → code.toNat < 2 ^ len.toNat →
    sym.toNat ≤ 0x10FFFF →
    (∀ j < s.params.nSym, j ≠ cti.toNat → (s.ctAt j).sym? ≠ some sym) →
    ∃ t, exec (.ldct cti len code sym) s = .next t ∧
      t = { s with ct := t.ct, txn := .answered 0 } ∧
      ∀ j, t.ctAt j = if j = cti.toNat then .valid sym len code else s.ctAt j

/-- LDCT's faults, in the order BAD_INDEX, BAD_LENGTH, BAD_SYMBOL, DUP_SYMBOL, with their details (R110, R222
to R225, R234). -/
def Obligations.LdctFaultsInItsCheckOrder : Prop :=
  ∀ (s : State) (cti : BitVec 8) (len : BitVec 5) (code : CodeBits) (sym : Sym),
    s.Inv → s.faulted = false →
    (s.params.nSym ≤ cti.toNat → CommandFaults (.ldct cti len code sym) s 2 (cti.setWidth 48)) ∧
    (cti.toNat < s.params.nSym →
      (len.toNat = 0 ∨ s.params.maxLen < len.toNat ∨ 2 ^ len.toNat ≤ code.toNat →
        CommandFaults (.ldct cti len code sym) s 3 (len.setWidth 48)) ∧
      (len.toNat ≠ 0 → len.toNat ≤ s.params.maxLen → code.toNat < 2 ^ len.toNat →
        (0x10FFFF < sym.toNat → CommandFaults (.ldct cti len code sym) s 4 (sym.setWidth 48)) ∧
        (sym.toNat ≤ 0x10FFFF → ∀ j < s.params.nSym, j ≠ cti.toNat → (s.ctAt j).sym? = some sym →
          CommandFaults (.ldct cti len code sym) s 5 (0#14 ++ BitVec.ofNat 10 j ++ 0#3 ++ sym))))

/-- LDLEAF with legal operands and no other leaf holding the symbol stores the leaf, whatever the node was,
and responds OK (R111). -/
def Obligations.LdleafStoresTheLeaf : Prop :=
  ∀ (s : State) (ni : NodeIx) (sym : Sym),
    s.Inv → s.faulted = false → ni.toNat < s.params.nNode → sym.toNat ≤ 0x10FFFF →
    (∀ j < s.params.nNode, j ≠ ni.toNat → (s.nodeAt j).sym? ≠ some sym) →
    ∃ t, exec (.ldleaf ni sym) s = .next t ∧
      t = { s with node := t.node, txn := .answered 0 } ∧
      ∀ j, t.nodeAt j = if j = ni.toNat then .leaf sym else s.nodeAt j

/-- LDLEAF's faults, in the order BAD_INDEX, BAD_SYMBOL, DUP_SYMBOL (R111, R222, R224, R225, R234). -/
def Obligations.LdleafFaultsInItsCheckOrder : Prop :=
  ∀ (s : State) (ni : NodeIx) (sym : Sym), s.Inv → s.faulted = false →
    (s.params.nNode ≤ ni.toNat → CommandFaults (.ldleaf ni sym) s 2 (ni.setWidth 48)) ∧
    (ni.toNat < s.params.nNode →
      (0x10FFFF < sym.toNat → CommandFaults (.ldleaf ni sym) s 4 (sym.setWidth 48)) ∧
      (sym.toNat ≤ 0x10FFFF → ∀ j < s.params.nNode, j ≠ ni.toNat → (s.nodeAt j).sym? = some sym →
        CommandFaults (.ldleaf ni sym) s 5 (0#14 ++ BitVec.ofNat 10 j ++ 0#3 ++ sym)))

/-- LDINT with indices in range, children NULL allowed, stores the internal node, whatever the node and its
children are, and responds OK (R112). -/
def Obligations.LdintStoresTheInternalNode : Prop :=
  ∀ (s : State) (ni left right : NodeIx),
    s.Inv → s.faulted = false → ni.toNat < s.params.nNode →
    (left = 0x3FF ∨ left.toNat < s.params.nNode) →
    (right = 0x3FF ∨ right.toNat < s.params.nNode) →
    ∃ t, exec (.ldint ni left right) s = .next t ∧
      t = { s with node := t.node, txn := .answered 0 } ∧
      ∀ j, t.nodeAt j = if j = ni.toNat then .internal left right else s.nodeAt j

/-- LDINT's faults: BAD_INDEX for NI, then LEFT, then RIGHT, told apart by FINFO[11:10] (R112, R222,
R234). -/
def Obligations.LdintFaultsInItsCheckOrder : Prop :=
  ∀ (s : State) (ni left right : NodeIx), s.faulted = false →
    (s.params.nNode ≤ ni.toNat → CommandFaults (.ldint ni left right) s 2 (0#36 ++ 0#2 ++ ni)) ∧
    (ni.toNat < s.params.nNode →
      (left ≠ 0x3FF ∧ s.params.nNode ≤ left.toNat →
        CommandFaults (.ldint ni left right) s 2 (0#36 ++ 1#2 ++ left)) ∧
      (left = 0x3FF ∨ left.toNat < s.params.nNode → right ≠ 0x3FF → s.params.nNode ≤ right.toNat →
        CommandFaults (.ldint ni left right) s 2 (0#36 ++ 2#2 ++ right)))

/-- R113: SETROOT writes ROOT for an index in range and nothing else, whatever the node is, and responds OK; it
faults BAD_INDEX for any other index, NULL among them, and ILLEGAL_CMD with a reserved bit set. -/
def Obligations.SetrootWritesRootOrFaults : Prop :=
  (∀ (s : State) (ni : NodeIx), s.faulted = false →
    (ni.toNat < s.params.nNode → s.fcause = 0 →
      exec (.setroot ni) s = .next { s with root := ni, txn := .answered 0 }) ∧
    (s.params.nNode ≤ ni.toNat → CommandFaults (.setroot ni) s 2 (ni.setWidth 48))) ∧
  ∀ (w : CmdWord) (s : State), s.faulted = false → w.extractLsb 63 60 = 0x6#4 →
    w.extractLsb 49 0 ≠ 0 → WordFaults w s 1 0

/-! ## BitEncoder (spec/41_encoder.md) -/

/-- ENC of a symbol with a valid entry whose code fits appends the code's bits, first element first, and
responds OK with the new BS_LEN and the length; nothing else changes (R140). -/
def Obligations.EncAppendsTheCode : Prop :=
  ∀ (s : State) (i : Nat) (sym : Sym) (len : BitVec 5) (code : CodeBits),
    s.Inv → s.faulted = false → i < s.params.nSym → s.ctAt i = .valid sym len code →
    s.bsLen.toNat + len.toNat ≤ s.params.bsCap →
    ∃ bits newLen, bits.length = len.toNat ∧
      (∀ k < len.toNat, bits[k]? = some (code.getLsbD (len.toNat - 1 - k))) ∧
      BitVec.toNat newLen = s.bsLen.toNat + len.toNat ∧
      exec (.enc sym) s =
        .next { s with bs := s.bs ++ bits, bsLen := newLen,
                       txn := .answered (0x0#4 ++ 0x0#4 ++ (0#27 ++ len ++ newLen)) }

/-- ENC's faults, in the order BAD_SYMBOL, ENC_NO_CODE, BUF_OVERFLOW; a faulting ENC appends nothing (R140,
R224, R226, R227, R234). -/
def Obligations.EncFaultsInItsCheckOrder : Prop :=
  ∀ (s : State) (sym : Sym), s.Inv → s.faulted = false →
    (0x10FFFF < sym.toNat → CommandFaults (.enc sym) s 4 (sym.setWidth 48)) ∧
    (sym.toNat ≤ 0x10FFFF →
      ((∀ i < s.params.nSym, (s.ctAt i).sym? ≠ some sym) →
        CommandFaults (.enc sym) s 6 (sym.setWidth 48)) ∧
      (∀ i < s.params.nSym, ∀ len code, s.ctAt i = .valid sym len code →
        s.params.bsCap < s.bsLen.toNat + len.toNat →
        CommandFaults (.enc sym) s 7 (0#18 ++ len.setWidth 6 ++ s.bsLen)))

/-- PUTBITS with a legal count and bits that fit appends them, first element first, and responds OK with the
new BS_LEN and the count (R142). -/
def Obligations.PutbitsAppendsTheBits : Prop :=
  ∀ (s : State) (cnt : BitVec 6) (data : BitVec 32),
    s.Inv → s.faulted = false → 1 ≤ cnt.toNat → cnt.toNat ≤ 32 → data.toNat < 2 ^ cnt.toNat →
    s.bsLen.toNat + cnt.toNat ≤ s.params.bsCap →
    ∃ bits newLen, bits.length = cnt.toNat ∧
      (∀ k < cnt.toNat, bits[k]? = some (data.getLsbD (cnt.toNat - 1 - k))) ∧
      BitVec.toNat newLen = s.bsLen.toNat + cnt.toNat ∧
      exec (.putbits cnt data) s =
        .next { s with bs := s.bs ++ bits, bsLen := newLen,
                       txn := .answered (0x0#4 ++ 0x0#4 ++ (0#26 ++ cnt ++ newLen)) }

/-- PUTBITS's faults: BAD_LENGTH, then BUF_OVERFLOW; a faulting PUTBITS appends nothing (R142, R223,
R227). -/
def Obligations.PutbitsFaultsInItsCheckOrder : Prop :=
  ∀ (s : State) (cnt : BitVec 6) (data : BitVec 32), s.faulted = false →
    (cnt.toNat = 0 ∨ 32 < cnt.toNat ∨ 2 ^ cnt.toNat ≤ data.toNat →
      CommandFaults (.putbits cnt data) s 3 (cnt.setWidth 48)) ∧
    (cnt.toNat ≠ 0 → cnt.toNat ≤ 32 → data.toNat < 2 ^ cnt.toNat →
      s.params.bsCap < s.bsLen.toNat + cnt.toNat →
      CommandFaults (.putbits cnt data) s 7 (0#18 ++ cnt ++ s.bsLen))

/-- R143: BSCLR empties the BitStream and rewinds both readers, leaves the tables, ROOT and the fault state,
and responds OK; with a reserved bit set it faults ILLEGAL_CMD. (What the emptied buffer's cells hold is
the model's choice, assumption log 2: nothing.) -/
def Obligations.BsclrEmptiesTheStreamAndRewindsBothReaders : Prop :=
  (∀ s : State, s.Inv → s.faulted = false →
    ∃ t, exec .bsclr s = .next t ∧ t.bitStream = [] ∧
      t = { s with bs := t.bs, bsLen := 0, decPos := 0, hxIdx := 0, txn := .answered 0 }) ∧
  ∀ (w : CmdWord) (s : State), s.faulted = false → w.extractLsb 63 60 = 0xB#4 →
    w.extractLsb 59 0 ≠ 0 → WordFaults w s 1 0

/-- R141: the concatenation law. From an empty stream, ENCs of the symbols of a text, with any commands
between them that neither write the buffer nor replace the code of a symbol of the text (an LDCT of another
symbol into another entry may), append the codes in order, if nothing faults; BS_LEN is the sum of their
lengths. -/
def Obligations.EncodingATextConcatenatesItsCodes : Prop :=
  ∀ (s t : State) (is : List Instr) (rs : List RspWord),
    s.Inv → s.bsLen = 0 → RunsSafely s is t rs →
    (∀ i ∈ is, s.KeepsCodes (encodedText is) i) →
    ∃ codes : List (List Bool),
      List.Forall₂ (fun sym bits => ∃ i len code, i < s.params.nSym ∧
          s.ctAt i = .valid sym len code ∧ bits = bitString len.toNat code)
        (encodedText is) codes ∧
      t.bitStream = codes.flatten ∧ t.bsLen.toNat = (codes.map List.length).sum

/-! ## HexPacker (spec/42_hexpacker.md) -/

/-- R162: the code of a value's digit, 0x30 to 0x39 for 0 to 9 and 0x41 to 0x46 for 10 to 15. -/
def Obligations.HexDigitIsUppercaseAscii : Prop :=
  ∀ v : BitVec 4, (hexDigit v).toNat = if v.toNat < 10 then 0x30 + v.toNat else 0x41 + (v.toNat - 10)

/-- HEXRD while group HX_IDX holds a BitStream bit delivers its digit: the four bits, lowest position most
significant, 0 at and beyond BS_LEN, with PAD exactly when the group is not full; only HX_IDX changes
(R160). -/
def Obligations.HexrdDeliversTheNextDigit : Prop :=
  ∀ s : State, s.Inv → s.faulted = false → 4 * s.hxIdx.toNat < s.bsLen.toNat →
    let bit := fun k => BitVec.ofBool (s.bs.getD (4 * s.hxIdx.toNat + k) false)
    let v : BitVec 4 := bit 0 ++ bit 1 ++ bit 2 ++ bit 3
    let pad := BitVec.ofBool (decide (s.bsLen.toNat < 4 * s.hxIdx.toNat + 4))
    ∃ newIdx, BitVec.toNat newIdx = s.hxIdx.toNat + 1 ∧
      exec .hexrd s =
        .next { s with hxIdx := newIdx,
                       txn := .answered
                         (0x0#4 ++ 0x0#4 ++ (0#8 ++ newIdx ++ (0#11 ++ pad ++ v ++ hexDigit v))) }

/-- HEXRD when no BitStream bit is left at or after 4·HX_IDX responds END with HX_IDX and changes nothing
(R160, R231). -/
def Obligations.HexrdAnswersEndWhenNoBitIsLeft : Prop :=
  ∀ s : State, s.Inv → s.faulted = false → s.bsLen.toNat ≤ 4 * s.hxIdx.toNat →
    exec .hexrd s = .next { s with txn := .answered (0x1#4 ++ 0x0#4 ++ (0#8 ++ s.hxIdx ++ 0#24)) }

/-- R161: HEXRW sets HX_IDX to 0 and changes nothing else; with a reserved bit set it faults
ILLEGAL_CMD. -/
def Obligations.HexrwRewindsThePacker : Prop :=
  (∀ s : State, s.faulted = false → s.fcause = 0 →
    exec .hexrw s = .next { s with hxIdx := 0, txn := .answered 0 }) ∧
  ∀ (w : CmdWord) (s : State), s.faulted = false → w.extractLsb 63 60 = 0xD#4 →
    w.extractLsb 59 0 ≠ 0 → WordFaults w s 1 0

/-- The HexString law: from HX_IDX = 0, HEXRD yields exactly ceil(L/4) digits and then END; digit g is that
of the g-th four bits, the last group padded with 0 (R163). -/
def Obligations.ReadingTheHexStringYieldsAllDigitsThenEnd : Prop :=
  ∀ s : State, s.Inv → s.faulted = false → s.hxIdx = 0 → s.txn = .idle →
    let n := (s.bitStream.length + 3) / 4
    ∃ t digits, runWords s (List.replicate (n + 1) (encode .hexrd)) =
        some (t, digits ++ [0x1#4 ++ 0x0#4 ++ (0#8 ++ t.hxIdx ++ 0#24)]) ∧
      t = { s with hxIdx := t.hxIdx } ∧ t.hxIdx.toNat = n ∧ digits.length = n ∧
      ∀ g < n, ∃ v : BitVec 4, (∀ k < 4, v.getLsbD (3 - k) = s.bitStream.getD (4 * g + k) false) ∧
        ∃ r, digits[g]? = some r ∧ rspStatus r = 0 ∧ r.extractLsb 11 8 = v ∧
          r.extractLsb 7 0 = hexDigit v

/-- The HexString does not tell padding from data: reading all of a stream, and of the same stream filled up
with 0 to a multiple of four bits, by HEXRD until END gives the same number of digits, the same value and
code of each, and then END. Both are the HexString of the shorter stream (R163). -/
def Obligations.PaddingIsLostInTheHexString : Prop :=
  ∀ s t : State, s.Inv → t.Inv → s.faulted = false → t.faulted = false → s.hxIdx = 0 → t.hxIdx = 0 →
    t.bitStream = s.bitStream ++
      List.replicate (4 * ((s.bitStream.length + 3) / 4) - s.bitStream.length) false →
    let reads := List.replicate ((s.bitStream.length + 3) / 4 + 1) (encode .hexrd)
    ∃ (u v : State) (ds es : List RspWord) (dEnd eEnd : RspWord),
      runWords s reads = some (u, ds ++ [dEnd]) ∧ runWords t reads = some (v, es ++ [eEnd]) ∧
      IsHexString s.bitStream ds ∧ IsHexString s.bitStream es ∧
      ds.map (fun r => r.extractLsb 11 0) = es.map (fun r => r.extractLsb 11 0) ∧
      rspStatus dEnd = 1 ∧ rspStatus eEnd = 1

/-! ## BitDecoder (spec/43_decoder.md) -/

/-- DEC with a path of bits from DEC_POS that leads from ROOT to a LEAF emits its symbol and moves DEC_POS
past those bits; nothing else changes (R180). -/
def Obligations.DecEmitsTheSymbolOfThePath : Prop :=
  ∀ (s : State) (bits rest : List Bool) (sym : Sym),
    s.Inv → s.faulted = false → s.bitStream.drop s.decPos.toNat = bits ++ rest →
    s.LeadsTo s.root bits sym →
    ∃ newPos, BitVec.toNat newPos = s.decPos.toNat + bits.length ∧
      exec .dec s =
        .next { s with decPos := newPos,
                       txn := .answered (0x0#4 ++ 0x0#4 ++ (0#8 ++ newPos ++ (0#3 ++ sym))) }

/-- DEC at the end of the stream responds END with DEC_POS and changes nothing, whatever the tree and ROOT
hold (R180, R231). -/
def Obligations.DecAnswersEndAtTheEndOfTheStream : Prop :=
  ∀ s : State, s.Inv → s.faulted = false → s.decPos = s.bsLen →
    exec .dec s = .next { s with txn := .answered (0x1#4 ++ 0x0#4 ++ (0#8 ++ s.decPos ++ 0#24)) }

/-- DEC's faults, where bits are left: DEC_BAD_ROOT first; then, on the way, DEC_MID_PATH where the stream
ends on an internal node and DEC_NO_CHILD where the cursor's node has no valid child for the bit read
(R180, R228, R229, R230, R234). -/
def Obligations.DecFaultsInItsCheckOrder : Prop :=
  ∀ s : State, s.Inv → s.faulted = false → s.decPos ≠ s.bsLen →
    (s.params.nNode ≤ s.root.toNat ∨ s.nodeAt s.root.toNat = .empty →
      CommandFaults .dec s 8 (s.root.setWidth 48)) ∧
    (s.root.toNat < s.params.nNode → s.nodeAt s.root.toNat ≠ .empty →
      (∀ cur, s.Passes s.root (s.bitStream.drop s.decPos.toNat) cur →
        CommandFaults .dec s 10 (s.bsLen ++ 0#14 ++ cur)) ∧
      (∀ before bit rest cur pos,
        s.bitStream.drop s.decPos.toNat = before ++ bit :: rest → s.Passes s.root before cur →
        s.childNode ((s.nodeAt cur.toNat).child bit) = .empty →
        BitVec.toNat pos = s.decPos.toNat + before.length →
        CommandFaults .dec s 9 (pos ++ 0#13 ++ BitVec.ofBool bit ++ cur)))

/-- Whatever the tables and the stream hold, DEC ends: the response END with nothing changed, or a symbol that a loaded
LEAF holds with DEC_POS moved forward inside the stream, or DEC_BAD_ROOT, DEC_NO_CHILD or DEC_MID_PATH
(R183, R184). -/
def Obligations.DecEndsOnEveryTreeAndStream : Prop :=
  ∀ s : State, s.Inv → s.faulted = false →
    ∃ t, exec .dec s = .next t ∧
      ((s.decPos = s.bsLen ∧
          t = { s with txn := .answered (0x1#4 ++ 0x0#4 ++ (0#8 ++ s.decPos ++ 0#24)) }) ∨
       (∃ n sym, n < s.params.nNode ∧ s.nodeAt n = .leaf sym ∧
          s.decPos.toNat < t.decPos.toNat ∧ t.decPos.toNat ≤ s.bsLen.toNat ∧
          t = { s with decPos := t.decPos,
                       txn := .answered (0x0#4 ++ 0x0#4 ++ (0#8 ++ t.decPos ++ (0#3 ++ sym))) }) ∨
       (∃ c info, (c = 8#4 ∨ c = 9#4 ∨ c = 10#4) ∧ CommandFaults .dec s c info))

/-- R181: DECRW sets DEC_POS to 0 and changes nothing else; with a reserved bit set it faults
ILLEGAL_CMD. -/
def Obligations.DecrwRewindsTheDecoder : Prop :=
  (∀ s : State, s.faulted = false → s.fcause = 0 →
    exec .decrw s = .next { s with decPos := 0, txn := .answered 0 }) ∧
  ∀ (w : CmdWord) (s : State), s.faulted = false → w.extractLsb 63 60 = 0xC#4 →
    w.extractLsb 59 0 ≠ 0 → WordFaults w s 1 0

/-- R164: packing and decoding do not disturb each other: a DEC that does not fault and a HEXRD give the same
responses and the same state in either order, and neither touches the other's position or the
BitStream. -/
def Obligations.DecodingAndPackingDoNotDisturbEachOther : Prop :=
  ∀ (s s1 s2 : State) (r1 r2 : RspWord),
    transact s (encode .dec) = some (s1, r1) → transact s (encode .hexrd) = some (s2, r2) →
    (s1.hxIdx = s.hxIdx ∧ s1.bitStream = s.bitStream) ∧
    (s2.decPos = s.decPos ∧ s2.bitStream = s.bitStream) ∧
    (s.faulted = false → s1.faulted = false →
      ∃ u, transact s1 (encode .hexrd) = some (u, r2) ∧ transact s2 (encode .dec) = some (u, r1))

/-- R182: the round-trip law. Let a text be encoded into an empty stream without a fault, with any commands
between and after the ENCs that neither write the stream nor replace the code of a symbol of the text
(loads of the tree among them), and let the code table be consistent with the tree at ROOT and DEC_POS be 0
then: the DECs give the text, symbol by symbol, each answering OK, and then END; nothing faults. For the
empty text the first DEC answers END whatever the tree holds. -/
def Obligations.DecodingAnEncodedTextGivesTheText : Prop :=
  (∀ (s t : State) (is : List Instr) (rs : List RspWord),
    s.Inv → s.bsLen = 0 → RunsSafely s is t rs → t.Consistent → t.decPos = 0 →
    (∀ i ∈ is, s.KeepsCodes (encodedText is) i) →
    let text := encodedText is
    ∃ u outs, runWords t (List.replicate text.length (encode .dec)) = some (u, outs) ∧
      u.faulted = false ∧ outs.map rspStatus = text.map (fun _ => 0#4) ∧
      outs.map (fun r => r.extractLsb 20 0) = text ∧
      ∃ v r, transact u (encode .dec) = some (v, r) ∧ rspStatus r = 1 ∧ v.faulted = false) ∧
  ∀ s : State, s.Inv → s.faulted = false → s.bsLen = 0 →
    ∃ v r, transact s (encode .dec) = some (v, r) ∧ rspStatus r = 1 ∧ v.faulted = false

/-! ## Control and status (spec/44_control.md) -/

/-- R200: NOP has no effect and answers OK; the all-zero word is NOP, with a reserved bit set it faults
ILLEGAL_CMD, and while faulted it is refused. -/
def Obligations.NopHasNoEffect : Prop :=
  (∀ s : State, s.faulted = false → s.fcause = 0 →
    exec .nop s = .next { s with txn := .answered 0 }) ∧
  decode 0 = .ok .nop ∧
  ∀ (w : CmdWord) (s : State), w.extractLsb 63 60 = 0x0#4 →
    (s.faulted = false → w.extractLsb 59 0 ≠ 0 → WordFaults w s 1 0) ∧
    (s.faulted = true → WordRefused w s)

/-- R201: SRST puts the block in the state hardware reset leaves, faulted or not, and answers OK with CAUSE 0;
with a reserved bit set it faults ILLEGAL_CMD, or is refused while faulted with the fault kept. -/
def Obligations.SrstResetsTheBlock : Prop :=
  (∀ s : State, exec .srst s =
    .next { State.resetOf s.params with drive := s.drive, txn := .answered 0 }) ∧
  ∀ (w : CmdWord) (s : State), w.extractLsb 63 60 = 0x1#4 → w.extractLsb 59 0 ≠ 0 →
    (s.faulted = false → WordFaults w s 1 0) ∧ (s.faulted = true → WordRefused w s)

/-- R202: STAT answers OK with the selected register zero-extended and changes nothing, faulted or not; a
reserved SEL or reserved bit faults ILLEGAL_CMD, or is refused while faulted. -/
def Obligations.StatReadsTheSelectedRegister : Prop :=
  (∀ (s : State) (sel : BitVec 4) (h : sel.toNat < 12),
    exec (.stat sel) s =
      .next { s with txn := .answered (0x0#4 ++ s.fcause ++
        ([s.bsLen.setWidth 56, s.decPos.setWidth 56, s.hxIdx.setWidth 56, s.root.setWidth 56,
          s.fcause.setWidth 56, s.finfo.setWidth 56, (s.fcmd.extractLsb 63 32).setWidth 56,
          (s.fcmd.extractLsb 31 0).setWidth 56, BitVec.ofNat 56 s.params.nSym,
          BitVec.ofNat 56 s.params.nNode, BitVec.ofNat 56 s.params.maxLen,
          BitVec.ofNat 56 s.params.bsCap] : List (BitVec 56))[sel.toNat]'h) }) ∧
  ∀ (w : CmdWord) (s : State), w.extractLsb 63 60 = 0xE#4 →
    w.extractLsb 59 4 ≠ 0 ∨ 12 ≤ (w.extractLsb 3 0).toNat →
    (s.faulted = false → WordFaults w s 1 0) ∧ (s.faulted = true → WordRefused w s)

/-! ## Host conventions (spec/30_encoding.md R99, spec/40_tables.md R114, R115) -/

/-- The assembler's LDCT and PUTBITS of a bit string: refused when it is empty or longer than the field,
otherwise the command whose length field is its length and whose bits, read as the block reads them, are
the string (R10, R99). -/
def Obligations.AssembledBitStringsAreReadBack : Prop :=
  ∀ (cti : BitVec 8) (sym : Sym) (bits : List Bool),
    (bits.length = 0 ∨ 26 < bits.length → Asm.ldctOf cti sym bits = .error .badBitString) ∧
    (1 ≤ bits.length → bits.length ≤ 26 → ∃ len code,
      Asm.ldctOf cti sym bits = .ok (.ldct cti len code sym) ∧ len.toNat = bits.length ∧
      code.toNat < 2 ^ len.toNat ∧ bitString len.toNat code = bits) ∧
    (bits.length = 0 ∨ 32 < bits.length → Asm.putbitsOf bits = .error .badBitString) ∧
    (1 ≤ bits.length → bits.length ≤ 32 → ∃ cnt data,
      Asm.putbitsOf bits = .ok (.putbits cnt data) ∧ cnt.toNat = bits.length ∧
      data.toNat < 2 ^ cnt.toNat ∧ bitString cnt.toNat data = bits)

/-- PUTHEX appends the digits' bits, four a digit, most significant first, whatever stands before them (R100,
R142): the lossy re-entry of a HexString, always a multiple of four bits (R163). -/
def Obligations.PuthexAppendsFourBitsPerDigit : Prop :=
  ∀ (s : State) (digits : List (BitVec 4)), s.Inv → s.faulted = false →
    s.bsLen.toNat + 4 * digits.length ≤ s.params.bsCap →
    ∃ t rs, RunsSafely s (Asm.puthex digits) t rs ∧
      t.bitStream = s.bitStream ++
        digits.flatMap fun d => [d.getLsbD 3, d.getLsbD 2, d.getLsbD 1, d.getLsbD 0]

/-- R8's sizing: where N_NODE ≥ 2·N_SYM − 1, N_NODE ≥ 2 and MAX_LEN ≥ N_SYM − 1, every tree whose leaves
fit the code table has its nodes in the node table, one more for the parent of a single leaf, and every
code of it has 1 to MAX_LEN bits. -/
def Obligations.AdvisedSizesHoldEveryTree : Prop :=
  ∀ (p : Params) (tree : HostTree), p.Legal → p.HoldsEveryTree → tree.leaves ≤ p.nSym →
    tree.nodes = 2 * tree.leaves - 1 ∧ tree.nodes ≤ p.nNode ∧
    tree.depth ≤ tree.leaves - 1 ∧ tree.depth ≤ p.maxLen ∧
    (tree.leaves = 1 → tree.nodes + 1 ≤ p.nNode) ∧
    ∀ sym code, tree.code sym = some code → 1 ≤ code.length ∧ code.length ≤ p.maxLen

/-- R114, R115 and R262: the commands that load a tree that fits, in any order, run on a reset block, all
answer OK and leave a code table consistent with the tree at ROOT; for one symbol they are those with the
synthetic parent. -/
def Obligations.LoadingATreeMakesTheTablesConsistent : Prop :=
  ∀ (p : Params) (tree : HostTree) (parent : NodeIx) (tables : List Instr),
    p.Legal → tree.Fits p parent → tables.Perm (tree.load parent) →
    ∃ t, RunsSafely (State.resetOf p) tables t (List.replicate tables.length 0) ∧ t.Consistent

/-- R262's use of the block, end to end: SRST, the commands that load a tree that fits, in any order, one ENC
per symbol of a text over the tree's symbols whose codes fit the buffer. From any state nothing faults and
the BitStream is the codes joined in text order. DEC until END and HEXRD until END, in either order, then
give the text back, each DEC answering OK, and the HexString of the stream, and leave the same state. -/
def Obligations.UseSequenceEncodesAndDecodesTheText : Prop :=
  ∀ (s : State) (tree : HostTree) (parent : NodeIx) (tables : List Instr) (text : List Sym)
    (codes : List (List Bool)),
    s.params.Legal → tree.Fits s.params parent → tables.Perm (tree.load parent) →
    text.map tree.code = codes.map some → codes.flatten.length ≤ s.params.bsCap →
    let decs := List.replicate (text.length + 1) (encode .dec)
    let hexrds := List.replicate ((codes.flatten.length + 3) / 4 + 1) (encode .hexrd)
    ∃ t rs, RunsSafely s (useSequence tables text) t rs ∧ t.bitStream = codes.flatten ∧
      ∃ (u : State) (outs digits : List RspWord) (decEnd hexEnd : RspWord),
        runWords t (decs ++ hexrds) = some (u, (outs ++ [decEnd]) ++ (digits ++ [hexEnd])) ∧
        runWords t (hexrds ++ decs) = some (u, (digits ++ [hexEnd]) ++ (outs ++ [decEnd])) ∧
        u.faulted = false ∧ outs.map rspStatus = text.map (fun _ => 0#4) ∧
        outs.map (fun r => r.extractLsb 20 0) = text ∧ rspStatus decEnd = 1 ∧
        IsHexString codes.flatten digits ∧ rspStatus hexEnd = 1
end

