-- ==== Sys2Proof/Laws/Decode.lean ====
section
/-! SUPPORT. What a decoded word looks like, said once: its opcode, its reserved bits and its fields;
and what matching a row of R93 says of a word. -/

namespace Sys2Proof

/-- Neighbouring fields of a word join to the field that spans both (R9). -/
theorem fields_join (w : CmdWord) (start mid n m : Nat) (h : mid = start + m) :
    w.extractLsb' mid n ++ w.extractLsb' start m = w.extractLsb' start (n + m) :=
  BitVec.extractLsb'_append_extractLsb'_eq_extractLsb' h

/-- Inversion of the decoder: a word that spells a command has that command's opcode, its reserved bits
are 0, and the operands are its fields (R83 to R91). -/
theorem decode_ok {w : CmdWord} {i : Instr} (h : decode w = .ok i) :
    (w.extractLsb 63 60 = 0x0#4 ∧ w.extractLsb 59 0 = 0#60 ∧ i = .nop) ∨
    (w.extractLsb 63 60 = 0x1#4 ∧ w.extractLsb 59 0 = 0#60 ∧ i = .srst) ∨
    (w.extractLsb 63 60 = 0x2#4 ∧
      i = .ldct (w.extractLsb 59 52) (w.extractLsb 51 47) (w.extractLsb 46 21) (w.extractLsb 20 0)) ∨
    (w.extractLsb 63 60 = 0x4#4 ∧ w.extractLsb 49 21 = 0#29 ∧
      i = .ldleaf (w.extractLsb 59 50) (w.extractLsb 20 0)) ∨
    (w.extractLsb 63 60 = 0x5#4 ∧ w.extractLsb 29 0 = 0#30 ∧
      i = .ldint (w.extractLsb 59 50) (w.extractLsb 49 40) (w.extractLsb 39 30)) ∨
    (w.extractLsb 63 60 = 0x6#4 ∧ w.extractLsb 49 0 = 0#50 ∧ i = .setroot (w.extractLsb 59 50)) ∨
    (w.extractLsb 63 60 = 0x7#4 ∧ w.extractLsb 59 21 = 0#39 ∧ i = .enc (w.extractLsb 20 0)) ∨
    (w.extractLsb 63 60 = 0x8#4 ∧ w.extractLsb 59 38 = 0#22 ∧
      i = .putbits (w.extractLsb 37 32) (w.extractLsb 31 0)) ∨
    (w.extractLsb 63 60 = 0x9#4 ∧ w.extractLsb 59 0 = 0#60 ∧ i = .dec) ∨
    (w.extractLsb 63 60 = 0xA#4 ∧ w.extractLsb 59 0 = 0#60 ∧ i = .hexrd) ∨
    (w.extractLsb 63 60 = 0xB#4 ∧ w.extractLsb 59 0 = 0#60 ∧ i = .bsclr) ∨
    (w.extractLsb 63 60 = 0xC#4 ∧ w.extractLsb 59 0 = 0#60 ∧ i = .decrw) ∨
    (w.extractLsb 63 60 = 0xD#4 ∧ w.extractLsb 59 0 = 0#60 ∧ i = .hexrw) ∨
    (w.extractLsb 63 60 = 0xE#4 ∧ w.extractLsb 59 4 = 0#56 ∧ i = .stat (w.extractLsb 3 0)) := by
  have opc {n : Nat} (h : (opcode w).toNat = n) : w.extractLsb 63 60 = BitVec.ofNat 4 n :=
    BitVec.eq_of_toNat_eq (by
      rw [show (w.extractLsb 63 60).toNat = n from h]
      have := (opcode w).isLt
      simp; omega)
  unfold decode at h
  split at h
  all_goals rename_i hop
  all_goals try (unfold whenZero at h; split at h)
  all_goals simp only [Except.ok.injEq, reduceCtorEq] at h
  all_goals subst h
  all_goals simp only [opc hop, reduceCtorEq, and_false, or_false, false_or, true_and, and_true,
    BitVec.reduceEq]
  all_goals assumption

/-- Matching a mask that covers the two fields `[63:60]` and `[hi:lo]` fixes just those (R93). -/
theorem mask_iff (w mask pattern : BitVec 64) (op : BitVec 4) (hi lo : Nat)
    (hm : ∀ k < 64, mask.getLsbD k = decide (60 ≤ k ∨ (lo ≤ k ∧ k ≤ hi)))
    (hp : ∀ k < 64, pattern.getLsbD k = (decide (60 ≤ k) && op.getLsbD (k - 60)))
    (hh : hi < 60) (hl : lo ≤ hi) :
    w &&& mask = pattern ↔ w.extractLsb 63 60 = op ∧ w.extractLsb hi lo = 0 := by
  constructor
  · intro h
    have hb : ∀ k < 64, (w.getLsbD k && mask.getLsbD k) = pattern.getLsbD k := by
      intro k hk; rw [← BitVec.getLsbD_and, h]
    constructor
    · apply BitVec.eq_of_getLsbD_eq
      intro k hk
      have := hb (60 + k) (by omega)
      rw [hm _ (by omega), hp _ (by omega)] at this
      simp at this
      simp [this]; omega
    · apply BitVec.eq_of_getLsbD_eq
      intro k hk
      have := hb (lo + k) (by omega)
      rw [hm _ (by omega), hp _ (by omega)] at this
      have h1 : ¬ 60 ≤ lo + k := by omega
      have h2 : lo + k ≤ hi := by omega
      simp [h1, h2] at this
      simp [this]
  · rintro ⟨rfl, h2⟩
    apply BitVec.eq_of_getLsbD_eq
    intro k hk
    rw [BitVec.getLsbD_and, hm k hk, hp k hk]
    by_cases h60 : 60 ≤ k
    · have : k - 60 ≤ 3 := by omega
      simp [h60, this]
    · by_cases hr : lo ≤ k ∧ k ≤ hi
      · have := congrArg (fun v => v.getLsbD (k - lo)) h2
        have e : lo + (k - lo) = k := by omega
        have e2 : k - lo ≤ hi - lo := by omega
        simp [e, e2] at this
        simp [h60, this]
      · simp [h60, hr]
/-- The same for LDCT's row, whose mask covers OPC alone. -/
theorem mask_op_iff (w pattern : BitVec 64) (op : BitVec 4)
    (hp : ∀ k < 64, pattern.getLsbD k = (decide (60 ≤ k) && op.getLsbD (k - 60))) :
    w &&& 0xF000000000000000#64 = pattern ↔ w.extractLsb 63 60 = op := by
  have hm : ∀ k < 64, (0xF000000000000000#64).getLsbD k = decide (60 ≤ k) := by decide
  constructor
  · intro h
    have hb : ∀ k < 64, (w.getLsbD k && (0xF000000000000000#64).getLsbD k) = pattern.getLsbD k := by
      intro k hk; rw [← BitVec.getLsbD_and, h]
    apply BitVec.eq_of_getLsbD_eq
    intro k hk
    have := hb (60 + k) (by omega)
    rw [hm _ (by omega), hp _ (by omega)] at this
    simp at this
    simp [this]; omega
  · rintro rfl
    apply BitVec.eq_of_getLsbD_eq
    intro k hk
    rw [BitVec.getLsbD_and, hm k hk, hp k hk]
    by_cases h60 : 60 ≤ k
    · have : k - 60 ≤ 3 := by omega
      simp [h60, this]
    · simp [h60]

end Sys2Proof
end

