-- ==== Sys2Proof/Laws/State.lean ====
section
/-! SUPPORT. One lemma per field per update of the state, each true by rfl, so that no proof unfolds a record
update. -/

namespace Sys2Proof.Machine.State

variable (s : State)

@[simp] theorem writeCt_params (i : Nat) (e : CtEntry) : (s.writeCt i e).params = s.params := rfl
@[simp] theorem writeCt_ct (i : Nat) (e : CtEntry) : (s.writeCt i e).ct = s.ct.set i e := rfl
@[simp] theorem writeCt_node (i : Nat) (e : CtEntry) : (s.writeCt i e).node = s.node := rfl
@[simp] theorem writeCt_root (i : Nat) (e : CtEntry) : (s.writeCt i e).root = s.root := rfl
@[simp] theorem writeCt_bs (i : Nat) (e : CtEntry) : (s.writeCt i e).bs = s.bs := rfl
@[simp] theorem writeCt_bsLen (i : Nat) (e : CtEntry) : (s.writeCt i e).bsLen = s.bsLen := rfl
@[simp] theorem writeCt_decPos (i : Nat) (e : CtEntry) : (s.writeCt i e).decPos = s.decPos := rfl
@[simp] theorem writeCt_hxIdx (i : Nat) (e : CtEntry) : (s.writeCt i e).hxIdx = s.hxIdx := rfl
@[simp] theorem writeCt_faulted (i : Nat) (e : CtEntry) : (s.writeCt i e).faulted = s.faulted := rfl
@[simp] theorem writeCt_fcause (i : Nat) (e : CtEntry) : (s.writeCt i e).fcause = s.fcause := rfl
@[simp] theorem writeCt_finfo (i : Nat) (e : CtEntry) : (s.writeCt i e).finfo = s.finfo := rfl
@[simp] theorem writeCt_fcmd (i : Nat) (e : CtEntry) : (s.writeCt i e).fcmd = s.fcmd := rfl
@[simp] theorem writeCt_txn (i : Nat) (e : CtEntry) : (s.writeCt i e).txn = s.txn := rfl
@[simp] theorem writeCt_drive (i : Nat) (e : CtEntry) : (s.writeCt i e).drive = s.drive := rfl

@[simp] theorem writeNode_params (n : Nat) (v : Node) : (s.writeNode n v).params = s.params := rfl
@[simp] theorem writeNode_ct (n : Nat) (v : Node) : (s.writeNode n v).ct = s.ct := rfl
@[simp] theorem writeNode_node (n : Nat) (v : Node) : (s.writeNode n v).node = s.node.set n v := rfl
@[simp] theorem writeNode_root (n : Nat) (v : Node) : (s.writeNode n v).root = s.root := rfl
@[simp] theorem writeNode_bs (n : Nat) (v : Node) : (s.writeNode n v).bs = s.bs := rfl
@[simp] theorem writeNode_bsLen (n : Nat) (v : Node) : (s.writeNode n v).bsLen = s.bsLen := rfl
@[simp] theorem writeNode_decPos (n : Nat) (v : Node) : (s.writeNode n v).decPos = s.decPos := rfl
@[simp] theorem writeNode_hxIdx (n : Nat) (v : Node) : (s.writeNode n v).hxIdx = s.hxIdx := rfl
@[simp] theorem writeNode_faulted (n : Nat) (v : Node) :
    (s.writeNode n v).faulted = s.faulted := rfl
@[simp] theorem writeNode_fcause (n : Nat) (v : Node) : (s.writeNode n v).fcause = s.fcause := rfl
@[simp] theorem writeNode_finfo (n : Nat) (v : Node) : (s.writeNode n v).finfo = s.finfo := rfl
@[simp] theorem writeNode_fcmd (n : Nat) (v : Node) : (s.writeNode n v).fcmd = s.fcmd := rfl
@[simp] theorem writeNode_txn (n : Nat) (v : Node) : (s.writeNode n v).txn = s.txn := rfl
@[simp] theorem writeNode_drive (n : Nat) (v : Node) : (s.writeNode n v).drive = s.drive := rfl

@[simp] theorem appendBits_params (bits : List Bool) : (s.appendBits bits).params = s.params := rfl
@[simp] theorem appendBits_ct (bits : List Bool) : (s.appendBits bits).ct = s.ct := rfl
@[simp] theorem appendBits_node (bits : List Bool) : (s.appendBits bits).node = s.node := rfl
@[simp] theorem appendBits_root (bits : List Bool) : (s.appendBits bits).root = s.root := rfl
@[simp] theorem appendBits_bs (bits : List Bool) :
    (s.appendBits bits).bs = s.bitStream ++ bits := rfl
@[simp] theorem appendBits_bsLen (bits : List Bool) :
    (s.appendBits bits).bsLen = BitVec.ofNat 24 (s.bsLen.toNat + bits.length) :=
    rfl
@[simp] theorem appendBits_decPos (bits : List Bool) : (s.appendBits bits).decPos = s.decPos := rfl
@[simp] theorem appendBits_hxIdx (bits : List Bool) : (s.appendBits bits).hxIdx = s.hxIdx := rfl
@[simp] theorem appendBits_faulted (bits : List Bool) :
    (s.appendBits bits).faulted = s.faulted := rfl
@[simp] theorem appendBits_fcause (bits : List Bool) : (s.appendBits bits).fcause = s.fcause := rfl
@[simp] theorem appendBits_finfo (bits : List Bool) : (s.appendBits bits).finfo = s.finfo := rfl
@[simp] theorem appendBits_fcmd (bits : List Bool) : (s.appendBits bits).fcmd = s.fcmd := rfl
@[simp] theorem appendBits_txn (bits : List Bool) : (s.appendBits bits).txn = s.txn := rfl
@[simp] theorem appendBits_drive (bits : List Bool) : (s.appendBits bits).drive = s.drive := rfl

@[simp] theorem respond_params (st : Status) (d : RspData) :
    (s.respond st d).params = s.params := rfl
@[simp] theorem respond_ct (st : Status) (d : RspData) : (s.respond st d).ct = s.ct := rfl
@[simp] theorem respond_node (st : Status) (d : RspData) : (s.respond st d).node = s.node := rfl
@[simp] theorem respond_root (st : Status) (d : RspData) : (s.respond st d).root = s.root := rfl
@[simp] theorem respond_bs (st : Status) (d : RspData) : (s.respond st d).bs = s.bs := rfl
@[simp] theorem respond_bsLen (st : Status) (d : RspData) : (s.respond st d).bsLen = s.bsLen := rfl
@[simp] theorem respond_decPos (st : Status) (d : RspData) :
    (s.respond st d).decPos = s.decPos := rfl
@[simp] theorem respond_hxIdx (st : Status) (d : RspData) : (s.respond st d).hxIdx = s.hxIdx := rfl
@[simp] theorem respond_faulted (st : Status) (d : RspData) :
    (s.respond st d).faulted = s.faulted :=
    rfl
@[simp] theorem respond_fcause (st : Status) (d : RspData) :
    (s.respond st d).fcause = s.fcause := rfl
@[simp] theorem respond_finfo (st : Status) (d : RspData) : (s.respond st d).finfo = s.finfo := rfl
@[simp] theorem respond_fcmd (st : Status) (d : RspData) : (s.respond st d).fcmd = s.fcmd := rfl
@[simp] theorem respond_txn (st : Status) (d : RspData) :
    (s.respond st d).txn = .answered (responseWord st s.fcause d) :=
    rfl
@[simp] theorem respond_drive (st : Status) (d : RspData) : (s.respond st d).drive = s.drive := rfl

@[simp] theorem raise_params (c : FaultCause) (info : Detail) (cmd : CmdWord) :
    (s.raise c info cmd).params = s.params :=
    rfl
@[simp] theorem raise_ct (c : FaultCause) (info : Detail) (cmd : CmdWord) :
    (s.raise c info cmd).ct = s.ct :=
    rfl
@[simp] theorem raise_node (c : FaultCause) (info : Detail) (cmd : CmdWord) :
    (s.raise c info cmd).node = s.node :=
    rfl
@[simp] theorem raise_root (c : FaultCause) (info : Detail) (cmd : CmdWord) :
    (s.raise c info cmd).root = s.root :=
    rfl
@[simp] theorem raise_bs (c : FaultCause) (info : Detail) (cmd : CmdWord) :
    (s.raise c info cmd).bs = s.bs :=
    rfl
@[simp] theorem raise_bsLen (c : FaultCause) (info : Detail) (cmd : CmdWord) :
    (s.raise c info cmd).bsLen = s.bsLen :=
    rfl
@[simp] theorem raise_decPos (c : FaultCause) (info : Detail) (cmd : CmdWord) :
    (s.raise c info cmd).decPos = s.decPos :=
    rfl
@[simp] theorem raise_hxIdx (c : FaultCause) (info : Detail) (cmd : CmdWord) :
    (s.raise c info cmd).hxIdx = s.hxIdx :=
    rfl
@[simp] theorem raise_faulted (c : FaultCause) (info : Detail) (cmd : CmdWord) :
    (s.raise c info cmd).faulted = true :=
    rfl
@[simp] theorem raise_fcause (c : FaultCause) (info : Detail) (cmd : CmdWord) :
    (s.raise c info cmd).fcause = c.code :=
    rfl
@[simp] theorem raise_finfo (c : FaultCause) (info : Detail) (cmd : CmdWord) :
    (s.raise c info cmd).finfo = info :=
    rfl
@[simp] theorem raise_fcmd (c : FaultCause) (info : Detail) (cmd : CmdWord) :
    (s.raise c info cmd).fcmd = cmd :=
    rfl
@[simp] theorem raise_txn (c : FaultCause) (info : Detail) (cmd : CmdWord) :
    (s.raise c info cmd).txn = .answered (responseWord .fault c.code 0) :=
    rfl
@[simp] theorem raise_drive (c : FaultCause) (info : Detail) (cmd : CmdWord) :
    (s.raise c info cmd).drive = s.drive :=
    rfl

@[simp] theorem refuse_params : (s.refuse).params = s.params := rfl
@[simp] theorem refuse_ct : (s.refuse).ct = s.ct := rfl
@[simp] theorem refuse_node : (s.refuse).node = s.node := rfl
@[simp] theorem refuse_root : (s.refuse).root = s.root := rfl
@[simp] theorem refuse_bs : (s.refuse).bs = s.bs := rfl
@[simp] theorem refuse_bsLen : (s.refuse).bsLen = s.bsLen := rfl
@[simp] theorem refuse_decPos : (s.refuse).decPos = s.decPos := rfl
@[simp] theorem refuse_hxIdx : (s.refuse).hxIdx = s.hxIdx := rfl
@[simp] theorem refuse_faulted : (s.refuse).faulted = s.faulted := rfl
@[simp] theorem refuse_fcause : (s.refuse).fcause = s.fcause := rfl
@[simp] theorem refuse_finfo : (s.refuse).finfo = s.finfo := rfl
@[simp] theorem refuse_fcmd : (s.refuse).fcmd = s.fcmd := rfl
@[simp] theorem refuse_txn : (s.refuse).txn = .answered (responseWord .faulted s.fcause 0) := rfl
@[simp] theorem refuse_drive : (s.refuse).drive = s.drive := rfl

@[simp] theorem nextDrive_params : (s.nextDrive).params = s.params := rfl
@[simp] theorem nextDrive_ct : (s.nextDrive).ct = s.ct := rfl
@[simp] theorem nextDrive_node : (s.nextDrive).node = s.node := rfl
@[simp] theorem nextDrive_root : (s.nextDrive).root = s.root := rfl
@[simp] theorem nextDrive_bs : (s.nextDrive).bs = s.bs := rfl
@[simp] theorem nextDrive_bsLen : (s.nextDrive).bsLen = s.bsLen := rfl
@[simp] theorem nextDrive_decPos : (s.nextDrive).decPos = s.decPos := rfl
@[simp] theorem nextDrive_hxIdx : (s.nextDrive).hxIdx = s.hxIdx := rfl
@[simp] theorem nextDrive_faulted : (s.nextDrive).faulted = s.faulted := rfl
@[simp] theorem nextDrive_fcause : (s.nextDrive).fcause = s.fcause := rfl
@[simp] theorem nextDrive_finfo : (s.nextDrive).finfo = s.finfo := rfl
@[simp] theorem nextDrive_fcmd : (s.nextDrive).fcmd = s.fcmd := rfl
@[simp] theorem nextDrive_txn : (s.nextDrive).txn = s.txn := rfl
@[simp] theorem nextDrive_drive : (s.nextDrive).drive = s.drive.tail := rfl

@[simp] theorem clear_params : (s.clear).params = s.params := rfl
@[simp] theorem clear_ct : (s.clear).ct = List.replicate s.params.nSym .invalid := rfl
@[simp] theorem clear_node : (s.clear).node = List.replicate s.params.nNode .empty := rfl
@[simp] theorem clear_root : (s.clear).root = 0x3FF#10 := rfl
@[simp] theorem clear_bs : (s.clear).bs = [] := rfl
@[simp] theorem clear_bsLen : (s.clear).bsLen = 0 := rfl
@[simp] theorem clear_decPos : (s.clear).decPos = 0 := rfl
@[simp] theorem clear_hxIdx : (s.clear).hxIdx = 0 := rfl
@[simp] theorem clear_faulted : (s.clear).faulted = false := rfl
@[simp] theorem clear_fcause : (s.clear).fcause = 0 := rfl
@[simp] theorem clear_finfo : (s.clear).finfo = 0 := rfl
@[simp] theorem clear_fcmd : (s.clear).fcmd = 0 := rfl
@[simp] theorem clear_txn : (s.clear).txn = .idle := rfl
@[simp] theorem clear_drive : (s.clear).drive = s.drive := rfl

end Sys2Proof.Machine.State
end

