-- ==== Sys2Proof/Laws/Ops.lean ====
section
/-! SUPPORT. What the shared operations do, said once: reading after writing, the two searches, the code
ENC looks up, bit strings, and the three ways a command ends (a fault, a refusal, a response). -/

namespace Sys2Proof.Machine

/-- Zeros above a field are its zero extension (R9). -/
theorem zeros_append {n : Nat} (m : Nat) (v : BitVec n) : 0#m ++ v = v.setWidth (m + n) := by
  apply BitVec.eq_of_toNat_eq
  have h : v.toNat < 2 ^ (m + n) :=
    Nat.lt_of_lt_of_le v.isLt (Nat.pow_le_pow_right (by decide) (by omega))
  simp [BitVec.toNat_append, Nat.mod_eq_of_lt h]

/-- FINFO of BAD_INDEX for CTI or NI is the index, zero-extended (R222). -/
theorem indexDetail_zero (ix : NodeIx) : indexDetail 0 ix = ix.setWidth 48 := by
  unfold indexDetail
  rw [show (0#36 ++ (0 : BitVec 2)) = 0#38 from rfl]
  exact zeros_append 38 ix

/-! ### Bit strings -/

@[simp] theorem bitString_length (n : Nat) {w : Nat} (f : BitVec w) :
    (bitString n f).length = n := by
  simp [bitString]

theorem bitString_getElem? (n : Nat) {w : Nat} (f : BitVec w) (k : Nat) (h : k < n) :
    (bitString n f)[k]? = some (f.getLsbD (n - 1 - k)) := by
  simp [bitString, h]

theorem bitsValue_append_singleton (bits : List Bool) (b : Bool) :
    bitsValue (bits ++ [b]) = 2 * bitsValue bits + b.toNat := by
  simp [bitsValue, List.foldl_append]

theorem bitsValue_lt (bits : List Bool) : bitsValue bits < 2 ^ bits.length := by
  induction bits using List.reverseRecOn with
  | nil => simp [bitsValue]
  | append_singleton l b ih =>
    have := Bool.toNat_lt b
    rw [bitsValue_append_singleton, List.length_append, List.length_singleton, pow_succ]
    omega

/-- The bits of a bit string are the bits of its value, the last element the least significant (R10). -/
theorem testBit_bitsValue (bits : List Bool) (k : Nat) (h : k < bits.length) :
    (bitsValue bits).testBit (bits.length - 1 - k) = bits[k] := by
  induction bits using List.reverseRecOn with
  | nil => simp at h
  | append_singleton l b ih =>
    rw [bitsValue_append_singleton]
    rcases Nat.lt_or_ge k l.length with hk | hk
    · have e : (l ++ [b]).length - 1 - k = (l.length - 1 - k) + 1 := by simp; omega
      rw [e, Nat.testBit_succ, List.getElem_append_left hk, ← ih hk]
      congr 1
      have := Bool.toNat_lt b
      omega
    · have e : k = l.length := by simp at h; omega
      subst e
      cases b <;> simp [Nat.testBit_zero]

/-- A bit string stored in a field and read back is itself (R10). -/
theorem bitString_of_bitsValue (bits : List Bool) {w : Nat} (h : bits.length ≤ w) :
    bitString bits.length (BitVec.ofNat w (bitsValue bits)) = bits := by
  apply List.ext_getElem (by simp)
  intro k hk hk'
  simp only [bitString, List.getElem_map, List.getElem_range, BitVec.getLsbD_ofNat]
  rw [testBit_bitsValue bits k hk']
  simp; omega

/-! ### The tables -/

namespace State

variable (s : State)

theorem ctAt_writeCt (i j : Nat) (e : CtEntry) (h : i < s.ct.length) :
    (s.writeCt i e).ctAt j = if j = i then e else s.ctAt j := by
  simp only [ctAt, writeCt_ct, List.getD_eq_getElem?_getD, List.getElem?_set]
  by_cases hj : i = j
  · subst hj; simp [h]
  · simp [hj, Ne.symm hj]

theorem nodeAt_writeNode (i j : Nat) (v : Node) (h : i < s.node.length) :
    (s.writeNode i v).nodeAt j = if j = i then v else s.nodeAt j := by
  simp only [nodeAt, writeNode_node, List.getD_eq_getElem?_getD, List.getElem?_set]
  by_cases hj : i = j
  · subst hj; simp [h]
  · simp [hj, Ne.symm hj]

/-- The search of LDCT and ENC finds an entry that qualifies (R110, R140). -/
theorem findCode_some {except : Option Nat} {sym : Sym} {i : Nat}
    (h : s.findCode except sym = some i) :
    i < s.params.nSym ∧ some i ≠ except ∧ (s.ctAt i).sym? = some sym := by
  have hp := List.find?_some h
  have hm := List.mem_of_find?_eq_some h
  simp at hp hm
  exact ⟨hm, hp.1, hp.2⟩

/-- It fails exactly when no entry qualifies. -/
theorem findCode_none {except : Option Nat} {sym : Sym} :
    s.findCode except sym = none ↔
      ∀ i < s.params.nSym, some i ≠ except → (s.ctAt i).sym? ≠ some sym := by
  simp [findCode, List.find?_eq_none]

/-- Where entries are unique it finds the one that qualifies (R39). -/
theorem findCode_eq (hu : s.CodesUnique) {except : Option Nat} {sym : Sym} {i : Nat}
    (hi : i < s.params.nSym) (he : some i ≠ except) (hs : (s.ctAt i).sym? = some sym) :
    s.findCode except sym = some i := by
  cases h : s.findCode except sym with
  | none => exact absurd hs (s.findCode_none.1 h i hi he)
  | some j =>
    obtain ⟨hj, -, hsj⟩ := s.findCode_some h
    rw [hu j hj i hi (by simp [hsj]) (by rw [hsj, hs])]

/-- The search of LDLEAF finds a leaf that qualifies (R111). -/
theorem findLeaf_some {except : Nat} {sym : Sym} {n : Nat}
    (h : s.findLeaf except sym = some n) :
    n < s.params.nNode ∧ n ≠ except ∧ (s.nodeAt n).sym? = some sym := by
  have hp := List.find?_some h
  have hm := List.mem_of_find?_eq_some h
  simp at hp hm
  exact ⟨hm, hp.1, hp.2⟩

/-- It fails exactly when no leaf qualifies. -/
theorem findLeaf_none {except : Nat} {sym : Sym} :
    s.findLeaf except sym = none ↔
      ∀ n < s.params.nNode, n ≠ except → (s.nodeAt n).sym? ≠ some sym := by
  simp [findLeaf, List.find?_eq_none]

/-- Where leaves are unique it finds the one that qualifies (R40). -/
theorem findLeaf_eq (hu : s.LeavesUnique) {except : Nat} {sym : Sym} {n : Nat}
    (hn : n < s.params.nNode) (he : n ≠ except) (hs : (s.nodeAt n).sym? = some sym) :
    s.findLeaf except sym = some n := by
  cases h : s.findLeaf except sym with
  | none => exact absurd hs (s.findLeaf_none.1 h n hn he)
  | some j =>
    obtain ⟨hj, -, hsj⟩ := s.findLeaf_some h
    rw [hu j hj n hn (by simp [hsj]) (by rw [hsj, hs])]

/-- The code ENC looks up is that of a valid entry holding the symbol (R140). -/
theorem codeOf_some {sym : Sym} {len : BitVec 5} {code : CodeBits}
    (h : s.codeOf sym = some (len, code)) :
    ∃ i < s.params.nSym, s.ctAt i = .valid sym len code := by
  unfold codeOf at h
  split at h
  · simp at h
  · rename_i i hi
    obtain ⟨hlt, -, hs⟩ := s.findCode_some hi
    split at h
    · rename_i sym' len' code' he
      simp only [Option.some.injEq, Prod.mk.injEq] at h
      obtain ⟨rfl, rfl⟩ := h
      rw [he] at hs
      simp only [CtEntry.sym?, Option.some.injEq] at hs
      exact ⟨i, hlt, hs ▸ he⟩
    · simp at h

/-- ENC finds no code exactly when no valid entry holds the symbol (R140, R226). -/
theorem codeOf_none {sym : Sym} :
    s.codeOf sym = none ↔ ∀ i < s.params.nSym, (s.ctAt i).sym? ≠ some sym := by
  unfold codeOf
  cases h : s.findCode none sym with
  | none => simpa using s.findCode_none.1 h
  | some i =>
    obtain ⟨hlt, -, hs⟩ := s.findCode_some h
    cases he : s.ctAt i with
    | invalid => simp [he, CtEntry.sym?] at hs
    | valid a b c => simpa [he] using ⟨i, hlt, by simpa [he] using hs⟩

/-- Where entries are unique, ENC finds the code of the entry that holds the symbol (R39, R140). -/
theorem codeOf_eq (hu : s.CodesUnique) {sym : Sym} {len : BitVec 5} {code : CodeBits} {i : Nat}
    (hi : i < s.params.nSym) (he : s.ctAt i = .valid sym len code) :
    s.codeOf sym = some (len, code) := by
  have hf : s.findCode none sym = some i :=
    s.findCode_eq hu hi (by simp) (by simp [he, CtEntry.sym?])
  simp [codeOf, hf, he]

/-! ### The bit buffer -/

/-- In the canonical form the buffer is the BitStream (R24). -/
theorem bitStream_eq (h : s.StorageWf) : s.bitStream = s.bs := by
  simp [bitStream, h.2.2]

theorem bitStream_length_le : s.bitStream.length ≤ s.bsLen.toNat := by
  simp [bitStream]

/-- Appending extends the BitStream at its end and nowhere else (R11, R22), while BS_LEN stays a 24-bit
number. -/
theorem bitStream_appendBits (bits : List Bool) (h : s.StorageWf)
    (hlt : s.bsLen.toNat + bits.length < 2 ^ 24) :
    (s.appendBits bits).bitStream = s.bitStream ++ bits := by
  have hl : s.bitStream.length = s.bsLen.toNat := by rw [s.bitStream_eq h, h.2.2]
  simp only [bitStream, appendBits_bs, appendBits_bsLen, BitVec.toNat_ofNat] at *
  rw [Nat.mod_eq_of_lt hlt, List.take_of_length_le]
  simp [hl]

/-! ### How a command ends -/

theorem unlessFaulted_of_running (effect : State) (h : s.faulted = false) :
    s.unlessFaulted effect = .next effect := by
  simp [unlessFaulted, h]

theorem unlessFaulted_of_faulted (effect : State) (h : s.faulted = true) :
    s.unlessFaulted effect = .next s.refuse := by
  simp [unlessFaulted, h]

/-- What a fault entry leaves, whole (R232). -/
theorem raise_eq (c : FaultCause) (info : Detail) (cmd : CmdWord) :
    s.raise c info cmd =
      { s with faulted := true, fcause := c.code, finfo := info, fcmd := cmd,
               txn := .answered (0x2#4 ++ c.code ++ 0#56) } := rfl

/-- What a refusal leaves, whole (R233). -/
theorem refuse_eq : s.refuse = { s with txn := .answered (0x3#4 ++ s.fcause ++ 0#56) } := rfl

/-! ### Every operation on the storage keeps its canonical form -/

theorem resetOf_storageWf (p : Params) : (State.resetOf p).StorageWf := by
  simp [StorageWf, resetOf]

theorem clear_storageWf : s.clear.StorageWf := by simp [StorageWf]

theorem writeCt_storageWf (i : Nat) (e : CtEntry) (h : s.StorageWf) :
    (s.writeCt i e).StorageWf := by simpa [StorageWf] using h

theorem writeNode_storageWf (n : Nat) (v : Node) (h : s.StorageWf) :
    (s.writeNode n v).StorageWf := by simpa [StorageWf] using h

theorem appendBits_storageWf (bits : List Bool) (h : s.StorageWf)
    (hlt : s.bsLen.toNat + bits.length < 2 ^ 24) : (s.appendBits bits).StorageWf := by
  have hl : s.bitStream.length = s.bsLen.toNat := by rw [s.bitStream_eq h, h.2.2]
  refine ⟨h.1, h.2.1, ?_⟩
  simp only [appendBits_bs, appendBits_bsLen, BitVec.toNat_ofNat, List.length_append, hl]
  exact (Nat.mod_eq_of_lt hlt).symm

end State

end Sys2Proof.Machine
end

