-- ==== Sys2Proof/Laws/Exec.lean ====
section
/-! SUPPORT. Inversion of the meanings: what state a command can end in, said once per command, guards
included. A running block (FAULTED = 0) either takes a fault or has the command's effect; a faulted block
refuses everything but SRST and a legal STAT. -/

namespace Sys2Proof.Machine

variable {s t : State}

/-- `t` is `s` after a fault of command `i`. -/
def Faulted (i : Instr) (s t : State) : Prop :=
  ∃ (c : FaultCause) (info : Detail), t = s.raise c info (encode i)

theorem State.unlessFaulted_next {effect : State} (h : s.unlessFaulted effect = .next t) :
    (s.faulted = true ∧ t = s.refuse) ∨ (s.faulted = false ∧ t = effect) := by
  unfold State.unlessFaulted at h
  cases hf : s.faulted <;> simp [hf] at h
  · exact .inr ⟨rfl, h.symm⟩
  · exact .inl ⟨rfl, h.symm⟩

/-! ### Table loading -/

theorem execLdct_next {cti : BitVec 8} {len : BitVec 5} {code : CodeBits} {sym : Sym}
    (hf : s.faulted = false) (h : execLdct cti len code sym s = .next t) :
    Faulted (.ldct cti len code sym) s t ∨
    (cti.toNat < s.params.nSym ∧ ¬ BadCodeLength s.params len code ∧ IsSymbol sym ∧
      s.findCode (some cti.toNat) sym = none ∧
      t = (s.writeCt cti.toNat (.valid sym len code)).respond .ok 0) := by
  simp only [execLdct, s.unlessFaulted_of_running _ hf, Host.Outcome.next.injEq] at h
  split at h
  · exact .inl ⟨_, _, h.symm⟩
  split at h
  · exact .inl ⟨_, _, h.symm⟩
  split at h
  · exact .inl ⟨_, _, h.symm⟩
  split at h
  · exact .inl ⟨_, _, h.symm⟩
  · exact .inr ⟨by omega, ‹_›, not_not.1 ‹_›, ‹_›, h.symm⟩

theorem execLdleaf_next {ni : NodeIx} {sym : Sym}
    (hf : s.faulted = false) (h : execLdleaf ni sym s = .next t) :
    Faulted (.ldleaf ni sym) s t ∨
    (ni.toNat < s.params.nNode ∧ IsSymbol sym ∧ s.findLeaf ni.toNat sym = none ∧
      t = (s.writeNode ni.toNat (.leaf sym)).respond .ok 0) := by
  simp only [execLdleaf, s.unlessFaulted_of_running _ hf, Host.Outcome.next.injEq] at h
  split at h
  · exact .inl ⟨_, _, h.symm⟩
  split at h
  · exact .inl ⟨_, _, h.symm⟩
  split at h
  · exact .inl ⟨_, _, h.symm⟩
  · exact .inr ⟨by omega, not_not.1 ‹_›, ‹_›, h.symm⟩

theorem execLdint_next {ni left right : NodeIx}
    (hf : s.faulted = false) (h : execLdint ni left right s = .next t) :
    Faulted (.ldint ni left right) s t ∨
    (ni.toNat < s.params.nNode ∧ ¬ BadChild s.params left ∧ ¬ BadChild s.params right ∧
      t = (s.writeNode ni.toNat (.internal left right)).respond .ok 0) := by
  simp only [execLdint, s.unlessFaulted_of_running _ hf, Host.Outcome.next.injEq] at h
  split at h
  · exact .inl ⟨_, _, h.symm⟩
  split at h
  · exact .inl ⟨_, _, h.symm⟩
  split at h
  · exact .inl ⟨_, _, h.symm⟩
  · exact .inr ⟨by omega, ‹_›, ‹_›, h.symm⟩

theorem execSetroot_next {ni : NodeIx}
    (hf : s.faulted = false) (h : execSetroot ni s = .next t) :
    Faulted (.setroot ni) s t ∨
    (ni.toNat < s.params.nNode ∧ t = ({ s with root := ni } : State).respond .ok 0) := by
  simp only [execSetroot, s.unlessFaulted_of_running _ hf, Host.Outcome.next.injEq] at h
  split at h
  · exact .inl ⟨_, _, h.symm⟩
  · exact .inr ⟨by omega, h.symm⟩

/-! ### BitEncoder -/

theorem execEnc_next {sym : Sym} (hf : s.faulted = false) (h : execEnc sym s = .next t) :
    Faulted (.enc sym) s t ∨
    ∃ len code, IsSymbol sym ∧ s.codeOf sym = some (len, code) ∧
      s.bsLen.toNat + len.toNat ≤ s.params.bsCap ∧
      t = (s.appendBits (bitString len.toNat code)).respond .ok
            (0#27 ++ len ++ (s.appendBits (bitString len.toNat code)).bsLen) := by
  simp only [execEnc, s.unlessFaulted_of_running _ hf, Host.Outcome.next.injEq] at h
  split at h
  · exact .inl ⟨_, _, h.symm⟩
  split at h
  · exact .inl ⟨_, _, h.symm⟩
  split at h
  · exact .inl ⟨_, _, h.symm⟩
  · exact .inr ⟨_, _, not_not.1 ‹_›, ‹_›, by omega, h.symm⟩

theorem execPutbits_next {cnt : BitVec 6} {data : BitVec 32}
    (hf : s.faulted = false) (h : execPutbits cnt data s = .next t) :
    Faulted (.putbits cnt data) s t ∨
    (¬ BadBitCount cnt data ∧ s.bsLen.toNat + cnt.toNat ≤ s.params.bsCap ∧
      t = (s.appendBits (bitString cnt.toNat data)).respond .ok
            (0#26 ++ cnt ++ (s.appendBits (bitString cnt.toNat data)).bsLen)) := by
  simp only [execPutbits, s.unlessFaulted_of_running _ hf, Host.Outcome.next.injEq] at h
  split at h
  · exact .inl ⟨_, _, h.symm⟩
  split at h
  · exact .inl ⟨_, _, h.symm⟩
  · exact .inr ⟨‹_›, by omega, h.symm⟩

/-! ### HexPacker -/

theorem execHexrd_next (hf : s.faulted = false) (h : execHexrd s = .next t) :
    (s.bsLen.toNat ≤ 4 * s.hxIdx.toNat ∧ t = s.respond .endOfData (atPosition s.hxIdx 0)) ∨
    (4 * s.hxIdx.toNat < s.bsLen.toNat ∧
      t = ({ s with hxIdx := s.hxIdx + 1 } : State).respond .ok
            (digitData (s.hxIdx + 1) (s.group s.hxIdx.toNat))) := by
  simp only [execHexrd, s.unlessFaulted_of_running _ hf, Host.Outcome.next.injEq] at h
  split at h
  · exact .inl ⟨‹_›, h.symm⟩
  · exact .inr ⟨by omega, h.symm⟩

/-! ### BitDecoder -/

/-- Where the walk lands: at least one bit and at most all of them are read, and the symbol is that of a
loaded LEAF (R183, R184). -/
theorem State.walk_landed {bits : List Bool} {pos : Nat} {cur : NodeIx} {sym : Sym} {pos' : Nat}
    (h : s.walk bits pos cur = .landed sym pos') :
    pos < pos' ∧ pos' ≤ pos + bits.length ∧
      ∃ n, n < s.params.nNode ∧ s.nodeAt n = .leaf sym := by
  induction bits generalizing pos cur with
  | nil => simp [State.walk] at h
  | cons b rest ih =>
    simp only [State.walk] at h
    split at h
    · simp at h
    · rename_i sym' hc
      simp only [WalkEnd.landed.injEq] at h
      obtain ⟨rfl, rfl⟩ := h
      refine ⟨by omega, by simp, ?_⟩
      unfold State.childNode at hc
      split at hc
      · simp at hc
      · rename_i hn
        exact ⟨_, by omega, hc⟩
    · obtain ⟨h1, h2, h3⟩ := ih h
      exact ⟨by omega, by simp; omega, h3⟩

/-- A walk that fails fails for want of a child or at the end of the stream (R180). -/
theorem State.walk_failed {bits : List Bool} {pos : Nat} {cur : NodeIx} {c : FaultCause}
    {info : Detail} (h : s.walk bits pos cur = .failed c info) :
    c = .decNoChild ∨ c = .decMidPath := by
  induction bits generalizing pos cur with
  | nil => simp [State.walk] at h; exact .inr h.1.symm
  | cons b rest ih =>
    simp only [State.walk] at h
    split at h
    · simp at h; exact .inl h.1.symm
    · simp at h
    · exact ih h

theorem execDec_next (hf : s.faulted = false) (h : execDec s = .next t) :
    (s.decPos = s.bsLen ∧ t = s.respond .endOfData (atPosition s.decPos 0)) ∨
    (∃ c info, (c = .decBadRoot ∨ c = .decNoChild ∨ c = .decMidPath) ∧
      t = s.raise c info (encode .dec)) ∨
    ∃ sym pos, s.decPos.toNat < pos ∧
      s.walk (s.bitStream.drop s.decPos.toNat) s.decPos.toNat s.root = .landed sym pos ∧
      t = ({ s with decPos := BitVec.ofNat 24 pos } : State).respond .ok
            (atPosition (BitVec.ofNat 24 pos) (0#3 ++ sym)) := by
  simp only [execDec, s.unlessFaulted_of_running _ hf, Host.Outcome.next.injEq] at h
  split at h
  · exact .inl ⟨‹_›, h.symm⟩
  split at h
  · exact .inr (.inl ⟨_, _, .inl rfl, h.symm⟩)
  split at h
  · rename_i hw
    exact .inr (.inl ⟨_, _, .inr (State.walk_failed hw), h.symm⟩)
  · rename_i hw
    exact .inr (.inr ⟨_, _, (State.walk_landed hw).1, hw, h.symm⟩)

/-! ### STAT, and all commands of a faulted block -/

theorem execStat_next {sel : BitVec 4} (h : execStat sel s = .next t) :
    (∃ r, statReg sel = some r ∧ t = s.respond .ok (s.statValue r)) ∨
    (statReg sel = none ∧ s.faulted = true ∧ t = s.refuse) ∨
    (statReg sel = none ∧ s.faulted = false ∧ Faulted (.stat sel) s t) := by
  unfold execStat at h
  split at h
  · simp at h; exact .inl ⟨_, ‹_›, h.symm⟩
  · rcases State.unlessFaulted_next h with ⟨hf, ht⟩ | ⟨hf, ht⟩
    · exact .inr (.inl ⟨‹_›, hf, ht⟩)
    · exact .inr (.inr ⟨‹_›, hf, _, _, ht⟩)

/-- What commands do where they neither fault nor are refused: one constructor per command and outcome (two
for DEC and HEXRD, which may answer END), with the guards it implies. All but STAT and SRST need a running
block. -/
inductive Effect (s : State) : Instr → State → Prop
  | nop : s.faulted = false → Effect s .nop (s.respond .ok 0)
  | srst : Effect s .srst (s.clear.respond .ok 0)
  | ldct {cti len code sym} : s.faulted = false → cti.toNat < s.params.nSym →
      ¬ BadCodeLength s.params len code → IsSymbol sym →
      s.findCode (some cti.toNat) sym = none →
      Effect s (.ldct cti len code sym)
        ((s.writeCt cti.toNat (.valid sym len code)).respond .ok 0)
  | ldleaf {ni : NodeIx} {sym} : s.faulted = false → ni.toNat < s.params.nNode → IsSymbol sym →
      s.findLeaf ni.toNat sym = none →
      Effect s (.ldleaf ni sym) ((s.writeNode ni.toNat (.leaf sym)).respond .ok 0)
  | ldint {ni left right : NodeIx} : s.faulted = false → ni.toNat < s.params.nNode →
      ¬ BadChild s.params left → ¬ BadChild s.params right →
      Effect s (.ldint ni left right) ((s.writeNode ni.toNat (.internal left right)).respond .ok 0)
  | setroot {ni : NodeIx} : s.faulted = false → ni.toNat < s.params.nNode →
      Effect s (.setroot ni) (({ s with root := ni } : State).respond .ok 0)
  | enc {sym len code} : s.faulted = false → IsSymbol sym → s.codeOf sym = some (len, code) →
      s.bsLen.toNat + len.toNat ≤ s.params.bsCap →
      Effect s (.enc sym) ((s.appendBits (bitString len.toNat code)).respond .ok
        (0#27 ++ len ++ (s.appendBits (bitString len.toNat code)).bsLen))
  | putbits {cnt data} : s.faulted = false → ¬ BadBitCount cnt data →
      s.bsLen.toNat + cnt.toNat ≤ s.params.bsCap →
      Effect s (.putbits cnt data) ((s.appendBits (bitString cnt.toNat data)).respond .ok
        (0#26 ++ cnt ++ (s.appendBits (bitString cnt.toNat data)).bsLen))
  | decEnd : s.faulted = false → s.decPos = s.bsLen →
      Effect s .dec (s.respond .endOfData (atPosition s.decPos 0))
  | dec {sym pos} : s.faulted = false → s.decPos.toNat < pos →
      s.walk (s.bitStream.drop s.decPos.toNat) s.decPos.toNat s.root = .landed sym pos →
      Effect s .dec (({ s with decPos := BitVec.ofNat 24 pos } : State).respond .ok
        (atPosition (BitVec.ofNat 24 pos) (0#3 ++ sym)))
  | hexrdEnd : s.faulted = false → s.bsLen.toNat ≤ 4 * s.hxIdx.toNat →
      Effect s .hexrd (s.respond .endOfData (atPosition s.hxIdx 0))
  | hexrd : s.faulted = false → 4 * s.hxIdx.toNat < s.bsLen.toNat →
      Effect s .hexrd (({ s with hxIdx := s.hxIdx + 1 } : State).respond .ok
        (digitData (s.hxIdx + 1) (s.group s.hxIdx.toNat)))
  | bsclr : s.faulted = false →
      Effect s .bsclr
        (({ s with bs := [], bsLen := 0, decPos := 0, hxIdx := 0 } : State).respond .ok 0)
  | decrw : s.faulted = false → Effect s .decrw (({ s with decPos := 0 } : State).respond .ok 0)
  | hexrw : s.faulted = false → Effect s .hexrw (({ s with hxIdx := 0 } : State).respond .ok 0)
  | stat {sel r} : statReg sel = some r →
      Effect s (.stat sel) (s.respond .ok (s.statValue r))

/-- How any command can end: refused by a faulted block, with a fault, or with its effect. -/
theorem exec_next {i : Instr} (h : exec i s = .next t) :
    (s.faulted = true ∧ t = s.refuse) ∨ (s.faulted = false ∧ Faulted i s t) ∨ Effect s i t := by
  cases hf : s.faulted with
  | true =>
    cases i with
    | srst =>
      simp only [exec, execSrst, Host.Outcome.next.injEq] at h
      exact .inr (.inr (h ▸ .srst))
    | stat sel =>
      rcases execStat_next h with ⟨r, hr, ht⟩ | ⟨-, -, ht⟩ | ⟨-, hn, -⟩
      · exact .inr (.inr (ht ▸ .stat hr))
      · exact .inl ⟨rfl, ht⟩
      · simp [hf] at hn
    | _ =>
      simp only [exec, execNop, execLdct, execLdleaf, execLdint, execSetroot, execEnc, execPutbits,
        execDec, execHexrd, execBsclr, execDecrw, execHexrw, s.unlessFaulted_of_faulted _ hf,
        Host.Outcome.next.injEq] at h
      exact .inl ⟨rfl, h.symm⟩
  | false =>
    refine .inr ?_
    cases i with
    | nop =>
      simp only [exec, execNop, s.unlessFaulted_of_running _ hf, Host.Outcome.next.injEq] at h
      exact .inr (h ▸ .nop hf)
    | srst =>
      simp only [exec, execSrst, Host.Outcome.next.injEq] at h
      exact .inr (h ▸ .srst)
    | ldct cti len code sym =>
      rcases execLdct_next hf h with h | ⟨h1, h2, h3, h4, rfl⟩
      · exact .inl ⟨rfl, h⟩
      · exact .inr (.ldct hf h1 h2 h3 h4)
    | ldleaf ni sym =>
      rcases execLdleaf_next hf h with h | ⟨h1, h2, h3, rfl⟩
      · exact .inl ⟨rfl, h⟩
      · exact .inr (.ldleaf hf h1 h2 h3)
    | ldint ni l r =>
      rcases execLdint_next hf h with h | ⟨h1, h2, h3, rfl⟩
      · exact .inl ⟨rfl, h⟩
      · exact .inr (.ldint hf h1 h2 h3)
    | setroot ni =>
      rcases execSetroot_next hf h with h | ⟨h1, rfl⟩
      · exact .inl ⟨rfl, h⟩
      · exact .inr (.setroot hf h1)
    | enc sym =>
      rcases execEnc_next hf h with h | ⟨len, code, h1, h2, h3, rfl⟩
      · exact .inl ⟨rfl, h⟩
      · exact .inr (.enc hf h1 h2 h3)
    | putbits cnt data =>
      rcases execPutbits_next hf h with h | ⟨h1, h2, rfl⟩
      · exact .inl ⟨rfl, h⟩
      · exact .inr (.putbits hf h1 h2)
    | dec =>
      rcases execDec_next hf h with ⟨h1, rfl⟩ | ⟨c, info, -, h1⟩ | ⟨sym, pos, h1, h2, rfl⟩
      · exact .inr (.decEnd hf h1)
      · exact .inl ⟨rfl, c, info, h1⟩
      · exact .inr (.dec hf h1 h2)
    | hexrd =>
      rcases execHexrd_next hf h with ⟨h1, rfl⟩ | ⟨h1, rfl⟩
      · exact .inr (.hexrdEnd hf h1)
      · exact .inr (.hexrd hf h1)
    | bsclr =>
      simp only [exec, execBsclr, s.unlessFaulted_of_running _ hf, Host.Outcome.next.injEq] at h
      exact .inr (h ▸ .bsclr hf)
    | decrw =>
      simp only [exec, execDecrw, s.unlessFaulted_of_running _ hf, Host.Outcome.next.injEq] at h
      exact .inr (h ▸ .decrw hf)
    | hexrw =>
      simp only [exec, execHexrw, s.unlessFaulted_of_running _ hf, Host.Outcome.next.injEq] at h
      exact .inr (h ▸ .hexrw hf)
    | stat sel =>
      rcases execStat_next h with ⟨r, hr, ht⟩ | ⟨-, hn, -⟩ | ⟨-, -, h⟩
      · exact .inr (ht ▸ .stat hr)
      · simp [hf] at hn
      · exact .inl ⟨rfl, h⟩

end Sys2Proof.Machine
end

