-- ==== Sys2Proof/Laws/PerInstr.lean ====
section
/-! SUPPORT. Statements made command by command. Family `Opcode`: the word of a command carries in
bits 63:60 the opcode R93 lists for it. -/

namespace Sys2Proof.Laws.Opcode

/-- R93's opcode column. -/
def listed : Instr → BitVec 4
  | .nop          => 0x0
  | .srst         => 0x1
  | .ldct _ _ _ _ => 0x2
  | .ldleaf _ _   => 0x4
  | .ldint _ _ _  => 0x5
  | .setroot _    => 0x6
  | .enc _        => 0x7
  | .putbits _ _  => 0x8
  | .dec          => 0x9
  | .hexrd        => 0xA
  | .bsclr        => 0xB
  | .decrw        => 0xC
  | .hexrw        => 0xD
  | .stat _       => 0xE

/-- The command's word carries its opcode. -/
def Statement (i : Instr) : Prop := opcode (encode i) = listed i

/-- The top four bits of a word put together from an opcode and a rest of 60 bits. -/
theorem opcode_append (op : BitVec 4) (rest : BitVec 60) :
    opcode (op ++ rest : BitVec 64) = op := by
  unfold opcode BitVec.extractLsb
  exact BitVec.extractLsb'_append_eq_left

/-- Every command's word carries its opcode; the lemmas below say so constructor by constructor. -/
theorem all (i : Instr) : Statement i := by
  cases i with
  | nop   => exact opcode_append 0x0 _
  | srst  => exact opcode_append 0x1 _
  | dec   => exact opcode_append 0x9 _
  | hexrd => exact opcode_append 0xA _
  | bsclr => exact opcode_append 0xB _
  | decrw => exact opcode_append 0xC _
  | hexrw => exact opcode_append 0xD _
  | _ =>
    simp (disch := decide) only [Statement, opcode, encode, BitVec.extractLsb,
      BitVec.extractLsb'_append_eq_of_le]
    exact BitVec.extractLsb'_eq_self

theorem nop : Statement .nop := all _
theorem srst : Statement .srst := all _
theorem ldct (cti : BitVec 8) (len : BitVec 5) (code : CodeBits) (sym : Sym) :
    Statement (.ldct cti len code sym) := all _
theorem ldleaf (ni : NodeIx) (sym : Sym) : Statement (.ldleaf ni sym) := all _
theorem ldint (ni left right : NodeIx) : Statement (.ldint ni left right) := all _
theorem setroot (ni : NodeIx) : Statement (.setroot ni) := all _
theorem enc (sym : Sym) : Statement (.enc sym) := all _
theorem putbits (cnt : BitVec 6) (data : BitVec 32) : Statement (.putbits cnt data) := all _
theorem dec : Statement .dec := all _
theorem hexrd : Statement .hexrd := all _
theorem bsclr : Statement .bsclr := all _
theorem decrw : Statement .decrw := all _
theorem hexrw : Statement .hexrw := all _
theorem stat (sel : BitVec 4) : Statement (.stat sel) := all _

end Sys2Proof.Laws.Opcode
end

