-- ==== Sys2Proof/WellFormed.lean ====
section
/-! DEFINITION. Which commands carry legal operand VALUES in a configuration (spec/30_encoding.md R101:
"a LEN, CNT, SYM or index value out of range is an illegal operand"). Every term of `Instr` has an
encoding and every legal word decodes to a term, so well-formedness is no premise of decoding (R94);
a command that is not well-formed runs and takes the fault its rule names. -/

namespace Sys2Proof

/-- The operand values of a command are legal for the block's parameters: the checks of R110 to R113,
R140, R142 and R202 that look at the operands alone. -/
def Instr.wellFormed (p : Params) (i : Instr) : Bool :=
  match i with
  | .ldct cti len code sym =>
      decide (cti.toNat < p.nSym) && !decide (Machine.BadCodeLength p len code)
        && decide (Machine.IsSymbol sym)
  | .ldleaf ni sym        => decide (ni.toNat < p.nNode) && decide (Machine.IsSymbol sym)
  | .ldint ni left right  =>
      decide (ni.toNat < p.nNode) && !decide (Machine.BadChild p left)
        && !decide (Machine.BadChild p right)
  | .setroot ni           => decide (ni.toNat < p.nNode)
  | .enc sym              => decide (Machine.IsSymbol sym)
  | .putbits cnt data     => !decide (Machine.BadBitCount cnt data)
  | .stat sel             => decide (sel.toNat < 12)
  | .nop | .srst | .dec | .hexrd | .bsclr | .decrw | .hexrw => true

end Sys2Proof
end

