-- ==== Sys2Proof/Tests/Slice0.lean ====
section
/-! SUPPORT. The model's own tests. Every expected word and response is one of spec/95_test_vectors.md (its row
is named in the docstring) or worked out by hand from the encoding formats of spec/30_encoding.md; and, for
every statement of Certificates/Slice0 with hypotheses, a witness that meets them. -/

namespace Sys2Proof.Machine.Tests

/-! ## The states the tests start from -/

/-- A small configuration. -/
def tiny : Params where
  nSym   := 3
  nNode  := 6
  maxLen := 3
  bsCap  := 12

/-- Table C3 and tree T3 of spec/95_test_vectors.md: a = "0", b = "10", c = "11". -/
def c3 : State :=
  { State.resetOf tiny with
    ct   := [.valid 0x61 1 0b0, .valid 0x62 2 0b10, .valid 0x63 2 0b11]
    node := [.leaf 0x61, .leaf 0x62, .leaf 0x63, .internal 1 2, .internal 0 3, .empty]
    root := 4 }

/-- The same with a BitStream. -/
def c3With (bits : List Bool) : State :=
  { c3 with bs := bits, bsLen := BitVec.ofNat 24 bits.length }

/-- The same, faulted by ENC 'z' (ENC_NO_CODE, cause 6, FINFO 0x7A). -/
def c3Faulted : State :=
  { c3 with faulted := true, fcause := 6, finfo := 0x7A, fcmd := 0x700000000000007A }

/-- The response of one command word. -/
def rsp (s : State) (w : CmdWord) : Option RspWord := (transact s w).map (·.2)

/-- A field of the state after one command word. -/
def after {α : Type} (s : State) (w : CmdWord) (f : State → α) : Option α :=
  (transact s w).map fun p => f p.1

/-- One step from `s` answers the next state `t`. -/
def stepsTo (s t : State) : Bool :=
  match step s with
  | .next t' => decide (t' = t)
  | _        => false

/-! ## WellFormed: one refused term for each check -/

theorem test_wf_ldct_index : Instr.wellFormed tiny (.ldct 3 1 0 0x61) = false := by decide
theorem test_wf_ldct_len_zero : Instr.wellFormed tiny (.ldct 0 0 0 0x61) = false := by decide
theorem test_wf_ldct_len_max : Instr.wellFormed tiny (.ldct 0 4 0 0x61) = false := by decide
theorem test_wf_ldct_code : Instr.wellFormed tiny (.ldct 0 2 4 0x61) = false := by decide
theorem test_wf_ldct_symbol : Instr.wellFormed tiny (.ldct 0 1 0 0x110000) = false := by decide
theorem test_wf_ldleaf_index : Instr.wellFormed tiny (.ldleaf 6 0x61) = false := by decide
theorem test_wf_ldleaf_symbol : Instr.wellFormed tiny (.ldleaf 0 0x110000) = false := by decide
theorem test_wf_ldint_index : Instr.wellFormed tiny (.ldint 6 0 1) = false := by decide
theorem test_wf_ldint_left : Instr.wellFormed tiny (.ldint 3 6 1) = false := by decide
theorem test_wf_ldint_right : Instr.wellFormed tiny (.ldint 3 0 0x3FE) = false := by decide
theorem test_wf_setroot_null : Instr.wellFormed tiny (.setroot 0x3FF) = false := by decide
theorem test_wf_enc_symbol : Instr.wellFormed tiny (.enc 0x110000) = false := by decide
theorem test_wf_putbits_zero : Instr.wellFormed tiny (.putbits 0 0) = false := by decide
theorem test_wf_putbits_count : Instr.wellFormed tiny (.putbits 33 0) = false := by decide
theorem test_wf_putbits_data : Instr.wellFormed tiny (.putbits 3 8) = false := by decide
theorem test_wf_stat_reserved : Instr.wellFormed tiny (.stat 12) = false := by decide
/-- At the bounds, and with NULL children, the commands are well-formed. -/
theorem test_wf_accepts :
    Instr.wellFormed tiny (.ldct 2 3 7 0x10FFFF) = true ∧
    Instr.wellFormed tiny (.ldint 5 0x3FF 5) = true ∧
    Instr.wellFormed tiny (.putbits 32 0xFFFFFFFF) = true ∧
    Instr.wellFormed tiny (.stat 11) = true := by decide

/-! ## Decoding: every command's word, written field by field from R84 to R91 -/

theorem test_decode_nop : decode (0b0000#4 ++ 0#60) = .ok .nop := by decide
theorem test_decode_srst : decode (0b0001#4 ++ 0#60) = .ok .srst := by decide
/-- Format C: OPC, CTI, LEN, CODE, SYM. -/
theorem test_decode_ldct :
    decode (0b0010#4 ++ 0b00000010#8 ++ 0b00010#5 ++ 0b00000000000000000000000001#26 ++
      0b000000000000001101100#21) = .ok (.ldct 2 2 1 0x6C) := by decide
/-- Format L: OPC, NI, 29 zeros, SYM. -/
theorem test_decode_ldleaf :
    decode (0b0100#4 ++ 0b0000000010#10 ++ 0#29 ++ 0b000000000000001101100#21) =
      .ok (.ldleaf 2 0x6C) := by decide
/-- Format I: OPC, NI, LEFT, RIGHT, 30 zeros. -/
theorem test_decode_ldint :
    decode (0b0101#4 ++ 0b0000010000#10 ++ 0b0000001110#10 ++ 0b0000001111#10 ++ 0#30) =
      .ok (.ldint 16 14 15) := by decide
/-- Format R: OPC, NI, 50 zeros. -/
theorem test_decode_setroot :
    decode (0b0110#4 ++ 0b0000010000#10 ++ 0#50) = .ok (.setroot 16) := by decide
/-- Format S: OPC, 39 zeros, SYM. -/
theorem test_decode_enc :
    decode (0b0111#4 ++ 0#39 ++ 0b000000000000001100001#21) = .ok (.enc 0x61) := by decide
/-- Format P: OPC, 22 zeros, CNT, DATA. -/
theorem test_decode_putbits :
    decode (0b1000#4 ++ 0#22 ++ 0b000011#6 ++ 0b00000000000000000000000000000101#32) =
      .ok (.putbits 3 5) := by decide
theorem test_decode_dec : decode (0b1001#4 ++ 0#60) = .ok .dec := by decide
theorem test_decode_hexrd : decode (0b1010#4 ++ 0#60) = .ok .hexrd := by decide
theorem test_decode_bsclr : decode (0b1011#4 ++ 0#60) = .ok .bsclr := by decide
theorem test_decode_decrw : decode (0b1100#4 ++ 0#60) = .ok .decrw := by decide
theorem test_decode_hexrw : decode (0b1101#4 ++ 0#60) = .ok .hexrw := by decide
/-- Format T: OPC, 56 zeros, SEL. -/
theorem test_decode_stat : decode (0b1110#4 ++ 0#56 ++ 0b1011#4) = .ok (.stat 11) := by decide
/-- The reserved opcodes and one reserved bit of each format are refused by name (R83, R101; the words of
rows FR13, FR14, NF4, NF9, NF12, EF3, EF8, CF7, HF1). -/
theorem test_decode_rejects :
    decode 0x3000000000000000 = .error .reservedOpcode ∧
    decode 0xF000000000000000 = .error .reservedOpcode ∧
    decode 0x4014000000200078 = .error .reservedBits ∧
    decode 0x5014010080000001 = .error .reservedBits ∧
    decode 0x6006000000000000 = .error .reservedBits ∧
    decode 0x7000000000200061 = .error .reservedBits ∧
    decode 0x8000004100000001 = .error .reservedBits ∧
    decode 0xE000000000000010 = .error .reservedBits ∧
    decode 0xA800000000000000 = .error .reservedBits := by decide
/-- The encoder writes the words of rows T3, NF8, E6 and CF1. -/
theorem test_encode :
    encode (.ldct 3 26 0x3FFFFFF 0x62) = 0x203D7FFFFFE00062#64 ∧
    encode (.ldint 5 1022 nullIx) = 0x5017FEFFC0000000#64 ∧
    encode (.putbits 32 0xFFFFFFFF) = 0x80000020FFFFFFFF#64 ∧
    encode (.stat 12) = 0xE00000000000000C#64 := by decide
/-- The host's decoder reads the table's words, and none that is too long. -/
theorem test_decodeTableWord :
    decodeTableWord 64 0x6040000000000000 = some (.setroot 16) ∧
    decodeTableWord 64 0xF000000000000000 = none ∧
    decodeTableWord 72 0 = none := by decide

/-! ## One command each -/

/-- Row E1's setup entry: 'c' reloaded at its own index is no duplicate (as row T4). -/
theorem test_ldct_stores :
    after c3 (encode (.ldct 2 1 1 0x63)) (·.ctAt 2) = some (.valid 0x63 1 1) := by decide
/-- Row TF8: DUP_SYMBOL names the index that holds the symbol. -/
theorem test_ldct_duplicate :
    rsp c3 0x2010800000200061 = some 0x2500000000000000#64 ∧
    after c3 0x2010800000200061 (·.finfo) = some 0x000000000061#48 := by decide
/-- Row N2: the same leaf again. -/
theorem test_ldleaf_stores :
    after c3 (encode (.ldleaf 5 0x78)) (·.nodeAt 5) = some (.leaf 0x78) := by decide
/-- Row NF3's shape: index 2 already holds 'c'. -/
theorem test_ldleaf_duplicate :
    after c3 (encode (.ldleaf 5 0x63)) (·.finfo) = some 0x000002000063#48 := by decide
/-- Row NF13: LDINT overwrites the leaf at index 2. -/
theorem test_ldint_overwrites :
    after c3 0x5008000040000000 (·.nodeAt 2) = some (.internal 0 1) := by decide
/-- Row NF8: 1022 is neither NULL nor an index; the right child is told apart by FINFO[11:10]. -/
theorem test_ldint_faults :
    after c3 0x5017FEFFC0000000 (·.finfo) = some 0x0000000007FE#48 ∧
    after c3 0x5014010A00000000 (·.finfo) = some 0x000000000828#48 := by decide
/-- Row N8. -/
theorem test_setroot : after c3 0x6000000000000000 (·.root) = some 0#10 := by decide
/-- Row NF11: SETROOT cannot name NULL. -/
theorem test_setroot_null :
    rsp c3 0x6FFC000000000000 = some 0x2200000000000000#64 ∧
    after c3 0x6FFC000000000000 (·.finfo) = some 0x0000000003FF#48 := by decide
/-- Rows E1 and E2: the code's first bit comes first. -/
theorem test_enc_appends :
    rsp c3 0x7000000000000062 = some 0x0000000002000002#64 ∧
    after c3 0x7000000000000062 (·.bs) = some [true, false] := by decide
/-- Rows EF1 and O3: no code; no room. -/
theorem test_enc_faults :
    after c3 0x700000000000007A (·.finfo) = some 0x00000000007A#48 ∧
    after (c3With (List.replicate 12 false)) 0x7000000000000061 (·.finfo) =
      some 0x00000100000C#48 := by decide
/-- Row D1: "01011". -/
theorem test_putbits_appends :
    rsp c3 0x800000050000000B = some 0x0000000005000005#64 ∧
    after c3 0x800000050000000B (·.bs) = some [false, true, false, true, true] := by decide
/-- Rows EF5, EF6 and EF7. -/
theorem test_putbits_faults :
    rsp c3 0x8000000000000000 = some 0x2300000000000000#64 ∧
    after c3 0x8000002100000000 (·.finfo) = some 33#48 ∧
    after c3 0x8000000300000008 (·.finfo) = some 3#48 := by decide
/-- Row B3: BSCLR rewinds both readers and keeps ROOT. -/
theorem test_bsclr :
    after { c3With [true, false] with decPos := 2, hxIdx := 1 } 0xB000000000000000
      (fun t => (t.bsLen, t.decPos, t.hxIdx, t.root)) = some (0, 0, 0, 4) := by decide
/-- Rows H6 and H8: the padded digit of "011", and the 'A' of "10100101". -/
theorem test_hexrd_digits :
    rsp (c3With [false, true, true]) 0xA000000000000000 = some 0x0000000001001636#64 ∧
    rsp (c3With [true, false, true, false, false, true, false, true]) 0xA000000000000000 =
      some 0x0000000001000A41#64 := by decide
/-- Row HX5: the group passed is not read again. -/
theorem test_hexrd_end :
    rsp { c3With [true, true, true, true] with hxIdx := 1 } 0xA000000000000000 =
      some 0x1000000001000000#64 := by decide
/-- Row HX6. -/
theorem test_hexrw :
    after { c3With [true] with hxIdx := 1 } 0xD000000000000000 (·.hxIdx) = some 0#24 := by decide
/-- Rows D3 and D5: 'b' from position 1, and the end. -/
theorem test_dec_symbol :
    rsp { c3With [false, true, false, true, true] with decPos := 1 } 0x9000000000000000 =
      some 0x0000000003000062#64 ∧
    rsp { c3With [false, true, false, true, true] with decPos := 5 } 0x9000000000000000 =
      some 0x1000000005000000#64 := by decide
/-- Rows DF1 (mid-path at position 2 on node 3), DF3 (EMPTY root) and DF5 (a LEAF root has no child). -/
theorem test_dec_faults :
    after { c3With [false, true] with decPos := 1 } 0x9000000000000000 (·.finfo) =
      some 0x000002000003#48 ∧
    rsp { c3With [false] with root := 5 } 0x9000000000000000 = some 0x2800000000000000#64 ∧
    rsp { c3With [false] with root := 0 } 0x9000000000000000 = some 0x2900000000000000#64 := by decide
/-- Row D7. -/
theorem test_decrw :
    after { c3With [false] with decPos := 1 } 0xC000000000000000 (·.decPos) = some 0#24 := by decide
/-- Rows C1 and FR1. -/
theorem test_nop :
    rsp c3 0 = some 0#64 ∧ rsp c3Faulted 0 = some 0x3600000000000000#64 := by decide
/-- Rows CF9 and CF8: SRST clears the fault, an SRST with bit 0 set is refused. -/
theorem test_srst :
    transact c3Faulted 0x1000000000000000 = some (State.resetOf tiny, 0#64) ∧
    rsp c3Faulted 0x1000000000000001 = some 0x3600000000000000#64 := by decide
/-- Rows C5 and FR17: ROOT, and FINFO while faulted. -/
theorem test_stat_reads :
    rsp c3 0xE000000000000003 = some 0x0000000000000004#64 ∧
    rsp c3Faulted 0xE000000000000005 = some 0x060000000000007A#64 := by decide
/-- Rows C13 (BS_CAP of the reference configuration) and CF1 (a reserved SEL). -/
theorem test_stat_params :
    rsp State.reset 0xE00000000000000B = some 0x0000000000001000#64 ∧
    rsp c3 0xE00000000000000C = some 0x2100000000000000#64 := by decide
/-- The reserved opcode, running and faulted (row FR13). -/
theorem test_reserved_opcode :
    rsp c3 0x3000000000000000 = some 0x2100000000000000#64 ∧
    after c3 0x3000000000000000 (·.fcmd) = some 0x3000000000000000#64 ∧
    rsp c3Faulted 0x3000000000000000 = some 0x3600000000000000#64 := by decide

/-! ## The step -/

/-- The very next step after `withFetchWord` runs the command, from reset (row N7). -/
theorem test_step_runs_fetched_word :
    stepsTo (State.reset.withFetchWord 64 0x6040000000000000)
      { State.reset with root := 16, txn := .answered 0 } = true := by decide
/-- Reset drops an accepted command (R235). -/
theorem test_step_reset :
    stepsTo { c3Faulted with txn := .accepted 0, drive := [⟨false, some 0, true⟩] }
      (State.resetOf tiny) = true := by decide

/-! ## The assembler: lines of spec/95_test_vectors.md and the words beside them -/

theorem test_asm_ldct :
    (Asm.line "LDCT 2, 'l', \"01\" ; row T2").map (·.map encode) =
      .ok [0x202100000020006C#64] := by decide
theorem test_asm_ldint :
    (Asm.line "LDINT 1, 0, -").map (·.map encode) = .ok [0x500400FFC0000000#64] := by decide
theorem test_asm_enc :
    (Asm.line "ENC U+110000").map (·.map encode) = .ok [0x7000000000110000#64] := by decide
theorem test_asm_stat :
    (Asm.line "STAT FCMD_HI").map (·.map encode) = .ok [0xE000000000000006#64] := by decide
/-- The pseudo-instructions of R100. -/
theorem test_asm_pseudo :
    Asm.line "ENCS \"aa\"" = .ok [.enc 0x61, .enc 0x61] ∧
    Asm.line "REWIND" = .ok [.decrw, .hexrw] ∧
    Asm.line "PUTHEX \"A\"" = .ok [.putbits 4 0b1010] := by decide
/-- What R99 refuses: an empty bit string, one that is too long, an unknown mnemonic. -/
theorem test_asm_refuses :
    Asm.line "PUTBITS \"\"" = .error .badBitString ∧
    Asm.line "LDCT 0, 'a', \"000000000000000000000000000\"" = .error .badBitString ∧
    Asm.line "JMP 0" = .error .unknownMnemonic := by decide

/-! ## Witnesses -/

/-- `Node.Stored` as a check. -/
def nodeStored (p : Params) : Node → Bool
  | .empty        => true
  | .leaf sym     => decide (IsSymbol sym)
  | .internal l r => !decide (BadChild p l) && !decide (BadChild p r)

/-- `CtEntry.Stored` as a check. -/
def entryStored (p : Params) : CtEntry → Bool
  | .invalid            => true
  | .valid sym len code => decide (IsSymbol sym) && !decide (BadCodeLength p len code)

/-- The invariant as a check. -/
def invCheck (s : State) : Bool :=
  decide s.params.Legal && decide s.StorageWf && decide (s.bsLen.toNat ≤ s.params.bsCap) &&
  decide (s.decPos.toNat ≤ s.bsLen.toNat) && decide (4 * s.hxIdx.toNat ≤ s.bsLen.toNat + 3) &&
  decide (s.fcause = 0 ↔ s.faulted = false) && decide s.CodesUnique && decide s.LeavesUnique &&
  s.ct.all (entryStored s.params) && s.node.all (nodeStored s.params) &&
  decide (s.root = nullIx ∨ s.root.toNat < s.params.nNode) && decide (s.fcause.toNat ≤ 10) &&
  decide (s.faulted = false → s.finfo = 0 ∧ s.fcmd = 0)

theorem inv_of_check {s : State} (h : invCheck s = true) : s.Inv := by
  unfold invCheck at h
  simp only [Bool.and_eq_true, decide_eq_true_eq, List.all_eq_true] at h
  obtain ⟨⟨⟨⟨⟨⟨⟨⟨⟨⟨⟨⟨h1, h2⟩, p1⟩, p2⟩, p3⟩, p4⟩, u1⟩, u2⟩, c⟩, n⟩, r⟩, k⟩, f⟩ := h
  refine ⟨h1, h2, ⟨p1, p2, p3, p4⟩, u1, u2, fun e he => ?_, fun v hv => ?_, r, k, f⟩
  · have := c e he
    cases e with
    | invalid => trivial
    | valid sym len code =>
      simp only [entryStored, Bool.and_eq_true, Bool.not_eq_true', decide_eq_true_eq,
        decide_eq_false_iff_not] at this
      exact this
  · have := n v hv
    cases v with
    | empty => trivial
    | leaf sym => exact of_decide_eq_true this
    | internal l r =>
      simp only [nodeStored, Bool.and_eq_true, Bool.not_eq_true', decide_eq_false_iff_not] at this
      exact this

theorem inv_c3 : c3.Inv := inv_of_check (by decide)
theorem inv_c3Faulted : c3Faulted.Inv := inv_of_check (by decide)
theorem inv_three : (c3With [true, false, true]).Inv := inv_of_check (by decide)
theorem inv_full : (c3With (List.replicate 12 false)).Inv := inv_of_check (by decide)

/-! ### Encoding -/

theorem witness_EncodeOfDecodeGivesTheWord :
    decode 0x2FFFFFFFFFFFFFFF = .ok (.ldct 0xFF 0x1F 0x3FFFFFF 0x1FFFFF) ∧
    decode 0x5FFFFFFFC0000000 = .ok (.ldint 0x3FF 0x3FF 0x3FF) := by decide

theorem witness_IllegalWordFaultsOrIsRefused :
    (∀ r ∈ opcodeTable, ¬ (0x3000000000000000#64 &&& r.mask = r.pattern)) ∧
    (∀ r ∈ opcodeTable, ¬ (0x7000000000200000#64 &&& r.mask = r.pattern)) ∧
    c3.faulted = false ∧ c3Faulted.faulted = true := by decide

/-! ### The host interface and reset -/

theorem witness_StepRunsTheAcceptedCommand :
    ∃ s : State, s.txn = .accepted 0 ∧ s.driveNow.rstN = true ∧ decode 0 = .ok .nop ∧
      ∃ s' : State, s'.txn = .accepted 0x1000000000000001 ∧ s'.driveNow.rstN = true ∧
        decode 0x1000000000000001 = .error .reservedBits :=
  ⟨{ c3 with txn := .accepted 0 }, by decide, by decide, by decide,
    { c3 with txn := .accepted 0x1000000000000001 }, by decide, by decide, by decide⟩

theorem witness_HandshakeMovesOneTransactionAtATime :
    (∃ s : State, s.driveNow.rstN = true ∧ s.txn = .idle ∧ s.driveNow.cmd = some 0) ∧
    (∃ s : State, s.driveNow.rstN = true ∧ s.txn = .idle ∧ s.driveNow.cmd = none) ∧
    (∃ s : State, s.driveNow.rstN = true ∧ s.txn = .answered 0 ∧ s.driveNow.rspReady = true) ∧
    (∃ s : State, s.driveNow.rstN = true ∧ s.txn = .answered 0 ∧ s.driveNow.rspReady = false) :=
  ⟨⟨{ c3 with drive := [⟨true, some 0, false⟩] }, by decide⟩, ⟨c3, by decide⟩,
    ⟨{ c3 with txn := .answered 0, drive := [⟨true, none, true⟩] }, by decide⟩,
    ⟨{ c3 with txn := .answered 0 }, by decide⟩⟩

theorem witness_ResetWinsOverTheOutstandingCommand :
    ∃ s : State, s.driveNow.rstN = false ∧ s.txn = .accepted 0 :=
  ⟨{ c3 with txn := .accepted 0, drive := [⟨false, none, false⟩] }, by decide⟩

theorem witness_HandshakeRefinesTheTransactionModel :
    ∃ (ws : List CmdWord) (s t : State) (rs : List RspWord),
      s.txn = .idle ∧ s.drive = [] ∧ runWords s ws = some (t, rs) ∧ ws.length = 2 :=
  ⟨[0, 0x3000000000000000], c3,
    { c3 with faulted := true, fcause := 1, fcmd := 0x3000000000000000 },
    [0, 0x2100000000000000], by decide⟩

/-- One word for each STATUS, and a STAT that answers OK with a CAUSE. -/
theorem witness_ResponseCarriesTheCauseAfterTheCommand :
    c3.Inv ∧ c3Faulted.Inv ∧
    (∃ t, executeWord 0 c3 = .next t ∧ t.txn = .answered 0) ∧
    (∃ t r, executeWord 0xA000000000000000 c3 = .next t ∧ t.txn = .answered r ∧ rspStatus r = 1) ∧
    (∃ t r, executeWord 0x700000000000007A c3 = .next t ∧ t.txn = .answered r ∧ rspStatus r = 2) ∧
    (∃ t r, executeWord 0 c3Faulted = .next t ∧ t.txn = .answered r ∧ rspStatus r = 3) ∧
    ∃ t r, executeWord 0xE000000000000004 c3Faulted = .next t ∧ t.txn = .answered r ∧
      rspStatus r = 0 ∧ rspCause r = 6 :=
  ⟨inv_c3, inv_c3Faulted, ⟨_, rfl, by decide⟩, ⟨_, 0x1000000000000000, rfl, by decide, by decide⟩,
    ⟨_, 0x2600000000000000, rfl, by decide, by decide⟩,
    ⟨_, 0x3600000000000000, rfl, by decide, by decide⟩,
    ⟨_, 0x0600000000000006, rfl, by decide, by decide, by decide⟩⟩

theorem witness_ResetAndSrstLeaveTheResetValues :
    (∃ s t : State, s.driveNow.rstN = false ∧ step s = .next t) ∧
    ∃ s t : State, exec .srst s = .next t :=
  ⟨⟨{ c3 with drive := [⟨false, none, false⟩] }, _, by decide, rfl⟩, ⟨c3Faulted, _, rfl⟩⟩

/-! ### State and invariants -/

/-- The smallest and the largest configuration of R6. -/
theorem witness_ResetStateSatisfiesTheInvariant :
    Params.Legal ⟨1, 2, 1, 1⟩ ∧ Params.Legal ⟨256, 1023, 26, 16777215⟩ := by decide

theorem witness_StepKeepsTheInvariant :
    ∃ s t : State, s.Inv ∧ step s = .next t ∧ t.bsLen = 2 :=
  ⟨{ c3 with txn := .accepted 0x7000000000000062 }, _, inv_of_check (by decide), rfl, by decide⟩

theorem witness_PositionsStayInRange :
    ∃ (w : CmdWord) (s t : State), s.params.Legal ∧ s.PositionsInRange ∧
      executeWord w s = .next t ∧ t.decPos = 3 :=
  ⟨0x9000000000000000, { c3With [true, false, false] with decPos := 2 }, _, by decide,
    ⟨by decide, by decide, by decide, by decide⟩, rfl, by decide⟩

theorem witness_EachCommandWritesOnlyItsState :
    (∃ (i : Instr) (s t : State), exec i s = .next t ∧ i ≠ .srst ∧ t.faulted = false) ∧
    ∃ (i : Instr) (s t : State), exec i s = .next t ∧ i ≠ .srst ∧ s.faulted = true :=
  ⟨⟨.enc 0x61, c3, _, rfl, by decide, by decide⟩, ⟨.nop, c3Faulted, _, rfl, by decide, by decide⟩⟩

theorem witness_BitStreamOnlyGrowsAtItsEnd :
    ∃ (i : Instr) (s t : State), s.Inv ∧ exec i s = .next t ∧ i ≠ .bsclr ∧ i ≠ .srst ∧
      s.bitStream ≠ t.bitStream :=
  ⟨.putbits 2 3, c3With [true, false, true], _, inv_three, rfl, by decide, by decide, by decide⟩

/-! ### Faults -/

theorem witness_FaultEntryChangesOnlyTheFaultRecord :
    ∃ (w : CmdWord) (s t : State), s.faulted = false ∧ executeWord w s = .next t ∧ t.faulted = true :=
  ⟨0x700000000000007A, c3, _, by decide, rfl, by decide⟩

/-- A NOP, a STAT of the first reserved register and an SRST with a reserved bit. -/
theorem witness_FaultedBlockRefusesAllButSrstAndStat :
    c3Faulted.faulted = true ∧
    (0x0000000000000000#64 ≠ encode .srst ∧
      ∀ sel : BitVec 4, sel.toNat < 12 → 0x0000000000000000#64 ≠ encode (.stat sel)) ∧
    (0xE00000000000000C#64 ≠ encode .srst ∧
      ∀ sel : BitVec 4, sel.toNat < 12 → 0xE00000000000000C#64 ≠ encode (.stat sel)) ∧
    (0x1000000000000001#64 ≠ encode .srst ∧
      ∀ sel : BitVec 4, sel.toNat < 12 → 0x1000000000000001#64 ≠ encode (.stat sel)) :=
  ⟨by decide, by decide, by decide, by decide⟩

theorem witness_OnlySrstOrResetLeavesTheFaultedState :
    ∃ s t : State, s.faulted = true ∧ step s = .next t ∧ s.driveNow.rstN = true ∧
      s.txn ≠ .accepted (encode .srst) :=
  ⟨{ c3Faulted with txn := .accepted 0 }, _, by decide, rfl, by decide, by decide⟩

/-! ### Table loading -/

/-- The last entry, the longest code with all bits 1, the largest symbol. -/
theorem witness_LdctStoresTheEntry :
    ∃ (s : State) (cti : BitVec 8) (len : BitVec 5) (code : CodeBits) (sym : Sym),
      s.Inv ∧ s.faulted = false ∧ cti.toNat < s.params.nSym ∧ 1 ≤ len.toNat ∧
      len.toNat ≤ s.params.maxLen ∧ code.toNat < 2 ^ len.toNat ∧ sym.toNat ≤ 0x10FFFF ∧
      ∀ j < s.params.nSym, j ≠ cti.toNat → (s.ctAt j).sym? ≠ some sym :=
  ⟨c3, 2, 3, 7, 0x10FFFF, inv_c3, by decide, by decide, by decide, by decide, by decide, by decide,
    by decide⟩

/-- The first index out of range; each way a length is bad; the first value that is no symbol; a symbol held
at another index. -/
theorem witness_LdctFaultsInItsCheckOrder :
    c3.Inv ∧ c3.faulted = false ∧ c3.params.nSym ≤ (3#8).toNat ∧ (2#8).toNat < c3.params.nSym ∧
    (0#5).toNat = 0 ∧ c3.params.maxLen < (4#5).toNat ∧ 2 ^ (3#5).toNat ≤ (8#26).toNat ∧
    ((3#5).toNat ≠ 0 ∧ (3#5).toNat ≤ c3.params.maxLen ∧ (7#26).toNat < 2 ^ (3#5).toNat) ∧
    0x10FFFF < (0x110000#21).toNat ∧
    (0x61#21).toNat ≤ 0x10FFFF ∧ 0 < c3.params.nSym ∧ 0 ≠ (2#8).toNat ∧
    (c3.ctAt 0).sym? = some 0x61 :=
  ⟨inv_c3, by decide, by decide, by decide, by decide, by decide, by decide, by decide, by decide,
    by decide, by decide, by decide, by decide⟩

theorem witness_LdleafStoresTheLeaf :
    ∃ (s : State) (ni : NodeIx) (sym : Sym), s.Inv ∧ s.faulted = false ∧
      ni.toNat < s.params.nNode ∧ sym.toNat ≤ 0x10FFFF ∧
      ∀ j < s.params.nNode, j ≠ ni.toNat → (s.nodeAt j).sym? ≠ some sym :=
  ⟨c3, 5, 0x10FFFF, inv_c3, by decide, by decide, by decide, by decide⟩

theorem witness_LdleafFaultsInItsCheckOrder :
    c3.Inv ∧ c3.faulted = false ∧ c3.params.nNode ≤ (6#10).toNat ∧ (5#10).toNat < c3.params.nNode ∧
    0x10FFFF < (0x110000#21).toNat ∧ (0x63#21).toNat ≤ 0x10FFFF ∧ 2 < c3.params.nNode ∧
    2 ≠ (5#10).toNat ∧ (c3.nodeAt 2).sym? = some 0x63 :=
  ⟨inv_c3, by decide, by decide, by decide, by decide, by decide, by decide, by decide, by decide⟩

/-- The last node, the last index as one child and NULL as the other. -/
theorem witness_LdintStoresTheInternalNode :
    ∃ (s : State) (ni left right : NodeIx), s.Inv ∧ s.faulted = false ∧
      ni.toNat < s.params.nNode ∧ (left = 0x3FF ∨ left.toNat < s.params.nNode) ∧
      (right = 0x3FF ∨ right.toNat < s.params.nNode) :=
  ⟨c3, 5, 5, 0x3FF, inv_c3, by decide, by decide, by decide, by decide⟩

/-- The first index out of range as NI, the same and the last index that is not NULL as children. -/
theorem witness_LdintFaultsInItsCheckOrder :
    c3.faulted = false ∧ c3.params.nNode ≤ (6#10).toNat ∧ (5#10).toNat < c3.params.nNode ∧
    ((6#10) ≠ 0x3FF ∧ c3.params.nNode ≤ (6#10).toNat) ∧
    ((0x3FF#10 = 0x3FF ∨ (0x3FF#10).toNat < c3.params.nNode) ∧ 0x3FE#10 ≠ 0x3FF ∧
      c3.params.nNode ≤ (0x3FE#10).toNat) := by decide

theorem witness_SetrootWritesRootOrFaults :
    c3.faulted = false ∧ c3.fcause = 0 ∧ (5#10).toNat < c3.params.nNode ∧
    c3.params.nNode ≤ (6#10).toNat ∧ c3.params.nNode ≤ nullIx.toNat ∧
    (0x6006000000000000#64).extractLsb 63 60 = 0x6#4 ∧
    (0x6006000000000000#64).extractLsb 49 0 ≠ 0#50 := by decide

/-! ### BitEncoder -/

/-- The code fills the buffer exactly. -/
theorem witness_EncAppendsTheCode :
    ∃ (s : State) (i : Nat) (sym : Sym) (len : BitVec 5) (code : CodeBits),
      s.Inv ∧ s.faulted = false ∧ i < s.params.nSym ∧ s.ctAt i = .valid sym len code ∧
      s.bsLen.toNat + len.toNat ≤ s.params.bsCap ∧ s.bsLen.toNat + len.toNat = s.params.bsCap :=
  ⟨c3With (List.replicate 10 false), 2, 0x63, 2, 3, inv_of_check (by decide), by decide, by decide,
    by decide, by decide, by decide⟩

/-- The first value that is no symbol, a symbol without a code, and a code of one bit for a full buffer. -/
theorem witness_EncFaultsInItsCheckOrder :
    (c3With (List.replicate 12 false)).Inv ∧ (c3With (List.replicate 12 false)).faulted = false ∧
    0x10FFFF < (0x110000#21).toNat ∧
    ((0x10FFFF#21).toNat ≤ 0x10FFFF ∧
      ∀ i < (c3With (List.replicate 12 false)).params.nSym,
        ((c3With (List.replicate 12 false)).ctAt i).sym? ≠ some 0x10FFFF) ∧
    (0 < (c3With (List.replicate 12 false)).params.nSym ∧
      (c3With (List.replicate 12 false)).ctAt 0 = .valid 0x61 1 0 ∧
      (c3With (List.replicate 12 false)).params.bsCap <
        (c3With (List.replicate 12 false)).bsLen.toNat + (1#5).toNat) :=
  ⟨inv_full, by decide, by decide, by decide, by decide⟩

theorem witness_PutbitsAppendsTheBits :
    ∃ (s : State) (cnt : BitVec 6) (data : BitVec 32), s.Inv ∧ s.faulted = false ∧
      1 ≤ cnt.toNat ∧ cnt.toNat ≤ 32 ∧ data.toNat < 2 ^ cnt.toNat ∧
      s.bsLen.toNat + cnt.toNat ≤ s.params.bsCap :=
  ⟨c3With [true, false, true], 9, 0x1FF, inv_three, by decide, by decide, by decide, by decide,
    by decide⟩

/-- A count of 0, one of 33, bits above the count; and one bit for a full buffer. -/
theorem witness_PutbitsFaultsInItsCheckOrder :
    (c3With (List.replicate 12 false)).faulted = false ∧ (0#6).toNat = 0 ∧ 32 < (33#6).toNat ∧
    2 ^ (3#6).toNat ≤ (8#32).toNat ∧
    ((1#6).toNat ≠ 0 ∧ (1#6).toNat ≤ 32 ∧ (1#32).toNat < 2 ^ (1#6).toNat ∧
      (c3With (List.replicate 12 false)).params.bsCap <
        (c3With (List.replicate 12 false)).bsLen.toNat + (1#6).toNat) := by decide

theorem witness_BsclrEmptiesTheStreamAndRewindsBothReaders :
    (c3With [true, false, true]).Inv ∧ (c3With [true, false, true]).faulted = false ∧
    (0xB000000000000001#64).extractLsb 63 60 = 0xB#4 ∧
    (0xB000000000000001#64).extractLsb 59 0 ≠ 0#60 :=
  ⟨inv_three, by decide, by decide, by decide⟩

/-- ENC 'b', an LDCT of 'z' over the entry of 'a', ENC 'c': "1011". -/
def encodeBC : List Instr := [.enc 0x62, .ldct 0 3 0b011 0x7A, .enc 0x63]

/-- Table C3 after `encodeBC`. -/
def c3AfterBC : State :=
  let t := c3With [true, false, true, true]
  { t with ct := t.ct.set 0 (.valid 0x7A 3 0b011) }

theorem encodeBC_safe :
    RunsSafely c3 encodeBC c3AfterBC [0x0000000002000002, 0, 0x0000000002000004] := by decide

theorem encodeBC_text : encodedText encodeBC = [0x62, 0x63] := rfl

/-- Entry 0 holds 'a', and 'z' is not in the text. -/
theorem encodeBC_keepsCodes : ∀ i ∈ encodeBC, c3.KeepsCodes [0x62, 0x63] i := by
  intro i hi
  simp only [encodeBC, List.mem_cons, List.not_mem_nil, or_false] at hi
  rcases hi with rfl | rfl | rfl
  · trivial
  · refine ⟨by simp, fun x hx h => ?_⟩
    obtain rfl : 0x61 = x := Option.some.inj h
    simp at hx
  · trivial

theorem witness_EncodingATextConcatenatesItsCodes :
    c3.Inv ∧ c3.bsLen = 0 ∧ encodedText encodeBC = [0x62, 0x63] ∧
    RunsSafely c3 encodeBC c3AfterBC [0x0000000002000002, 0, 0x0000000002000004] ∧
    c3AfterBC.bitStream = [true, false, true, true] ∧
    ∀ i ∈ encodeBC, c3.KeepsCodes (encodedText encodeBC) i :=
  ⟨inv_c3, by decide, encodeBC_text, encodeBC_safe, by decide,
    encodeBC_text ▸ encodeBC_keepsCodes⟩

/-! ### HexPacker -/

/-- The last bit alone in its group. -/
theorem witness_HexrdDeliversTheNextDigit :
    ∃ s : State, s.Inv ∧ s.faulted = false ∧ 4 * s.hxIdx.toNat < s.bsLen.toNat :=
  ⟨{ c3With [true, false, true, true, true] with hxIdx := 1 }, inv_of_check (by decide), by decide,
    by decide⟩

theorem witness_HexrdAnswersEndWhenNoBitIsLeft :
    ∃ s : State, s.Inv ∧ s.faulted = false ∧ s.bsLen.toNat ≤ 4 * s.hxIdx.toNat ∧ s.hxIdx = 1 :=
  ⟨{ c3With [true, false, true, true] with hxIdx := 1 }, inv_of_check (by decide), by decide,
    by decide, by decide⟩

theorem witness_HexrwRewindsThePacker :
    c3.faulted = false ∧ c3.fcause = 0 ∧ (0xD800000000000000#64).extractLsb 63 60 = 0xD#4 ∧
    (0xD800000000000000#64).extractLsb 59 0 ≠ 0#60 := by decide

theorem witness_ReadingTheHexStringYieldsAllDigitsThenEnd :
    ∃ s : State, s.Inv ∧ s.faulted = false ∧ s.hxIdx = 0 ∧ s.txn = .idle ∧
      s.bitStream.length = 5 :=
  ⟨c3With [true, false, true, true, true], inv_of_check (by decide), by decide, by decide, by decide,
    by decide⟩

/-- "101" and "1010". -/
theorem witness_PaddingIsLostInTheHexString :
    ∃ s t : State, s.Inv ∧ t.Inv ∧ s.faulted = false ∧ t.faulted = false ∧ s.hxIdx = 0 ∧
      t.hxIdx = 0 ∧
      t.bitStream = s.bitStream ++
        List.replicate (4 * ((s.bitStream.length + 3) / 4) - s.bitStream.length) false ∧ s ≠ t :=
  ⟨c3With [true, false, true], c3With [true, false, true, false], inv_three,
    inv_of_check (by decide), by decide, by decide, by decide, by decide, by decide, by decide⟩

/-! ### BitDecoder -/

/-- 'b' = "10" leads from the root over node 3 to leaf 1. -/
theorem leads_b : ∀ bits : List Bool, (c3With bits).LeadsTo (c3With bits).root [true, false] 0x62 :=
  fun _ => ⟨[true], false, 3, rfl, ⟨⟨1, 2, rfl⟩, rfl⟩, rfl⟩

theorem witness_DecEmitsTheSymbolOfThePath :
    ∃ (s : State) (bits rest : List Bool) (sym : Sym), s.Inv ∧ s.faulted = false ∧
      s.bitStream.drop s.decPos.toNat = bits ++ rest ∧ s.LeadsTo s.root bits sym :=
  ⟨c3With [true, false, true], [true, false], [true], 0x62, inv_three, by decide, by decide,
    leads_b _⟩

theorem witness_DecAnswersEndAtTheEndOfTheStream :
    ∃ s : State, s.Inv ∧ s.faulted = false ∧ s.decPos = s.bsLen ∧ s.bsLen = 3 :=
  ⟨{ c3With [true, false, true] with decPos := 3 }, inv_of_check (by decide), by decide, by decide,
    by decide⟩

/-- A bad root, out of range or EMPTY; a stream that ends on node 3; and a LEAF root. -/
theorem witness_DecFaultsInItsCheckOrder :
    (∃ s : State, s.Inv ∧ s.faulted = false ∧ s.decPos ≠ s.bsLen ∧ s.params.nNode ≤ s.root.toNat) ∧
    (∃ s : State, s.Inv ∧ s.faulted = false ∧ s.decPos ≠ s.bsLen ∧ s.nodeAt s.root.toNat = .empty) ∧
    (∃ (s : State) (cur : NodeIx), s.Inv ∧ s.faulted = false ∧ s.decPos ≠ s.bsLen ∧
      s.root.toNat < s.params.nNode ∧ s.nodeAt s.root.toNat ≠ .empty ∧
      s.Passes s.root (s.bitStream.drop s.decPos.toNat) cur) ∧
    (∃ (s : State) (before : List Bool) (bit : Bool) (rest : List Bool) (cur : NodeIx) (pos : BitPos),
      s.Inv ∧ s.faulted = false ∧ s.decPos ≠ s.bsLen ∧
      s.root.toNat < s.params.nNode ∧ s.nodeAt s.root.toNat ≠ .empty ∧
      s.bitStream.drop s.decPos.toNat = before ++ bit :: rest ∧ s.Passes s.root before cur ∧
      s.childNode ((s.nodeAt cur.toNat).child bit) = .empty ∧
      pos.toNat = s.decPos.toNat + before.length) :=
  ⟨⟨{ c3With [true] with root := nullIx }, inv_of_check (by decide), by decide, by decide, by decide⟩,
    ⟨{ c3With [true] with root := 5 }, inv_of_check (by decide), by decide, by decide, by decide⟩,
    ⟨c3With [true], 3, inv_of_check (by decide), by decide, by decide, by decide, by decide,
      ⟨⟨1, 2, rfl⟩, rfl⟩⟩,
    ⟨{ c3With [true] with root := 0 }, [], true, [], 0, 0, inv_of_check (by decide), by decide,
      by decide, by decide, by decide, by decide, rfl, by decide, by decide⟩⟩

theorem witness_DecEndsOnEveryTreeAndStream : ∃ s : State, s.Inv ∧ s.faulted = false :=
  ⟨c3With [true, false, true], inv_three, by decide⟩

theorem witness_DecrwRewindsTheDecoder :
    c3.faulted = false ∧ c3.fcause = 0 ∧ (0xC000010000000000#64).extractLsb 63 60 = 0xC#4 ∧
    (0xC000010000000000#64).extractLsb 59 0 ≠ 0#60 := by decide

theorem witness_DecodingAndPackingDoNotDisturbEachOther :
    ∃ (s s1 s2 : State) (r1 r2 : RspWord), transact s (encode .dec) = some (s1, r1) ∧
      transact s (encode .hexrd) = some (s2, r2) ∧ s.faulted = false ∧ s1.faulted = false :=
  ⟨c3With [true, false, true], { c3With [true, false, true] with decPos := 2 },
    { c3With [true, false, true] with hxIdx := 1 }, 0x0000000002000062, 0x0000000001001A41,
    by decide, by decide, by decide, by decide⟩

/-- Every LEAF of table C3's tree holds the symbol of an entry, and every code leads to its leaf. -/
theorem c3With_consistent (bits : List Bool) : (c3With bits).Consistent := by
  have leaves : ∀ n < 6, ∀ sym, (c3With bits).nodeAt n = .leaf sym →
      ∃ i < 3, ((c3With bits).ctAt i).sym? = some sym := by
    intro n hn sym h
    have : n = 0 ∨ n = 1 ∨ n = 2 ∨ n = 3 ∨ n = 4 ∨ n = 5 := by omega
    rcases this with rfl | rfl | rfl | rfl | rfl | rfl
    · cases h; exact ⟨0, by decide, rfl⟩
    · cases h; exact ⟨1, by decide, rfl⟩
    · cases h; exact ⟨2, by decide, rfl⟩
    all_goals cases h
  refine ⟨fun i sym len code hi h => ?_, fun sym h => ?_⟩
  · have : i = 0 ∨ i = 1 ∨ i = 2 := by have : i < 3 := hi; omega
    rcases this with rfl | rfl | rfl
    · cases h; exact ⟨[], false, 4, rfl, rfl, rfl⟩
    · cases h; exact ⟨[true], false, 3, rfl, ⟨⟨1, 2, rfl⟩, rfl⟩, rfl⟩
    · cases h; exact ⟨[true], true, 3, rfl, ⟨⟨1, 2, rfl⟩, rfl⟩, rfl⟩
  · rcases h with h | ⟨-, before, bit, cur, -, -, h⟩
    · cases h
    · unfold State.childNode at h
      split at h
      · cases h
      · rename_i hn
        exact leaves _ (Nat.not_le.1 fun hc => hn (Or.inr hc)) sym h

/-- The text "bc", encoded before the leaf of 'c' is loaded. -/
theorem witness_DecodingAnEncodedTextGivesTheText :
    ∃ (s t : State) (is : List Instr) (rs : List RspWord), s.Inv ∧ s.bsLen = 0 ∧
      RunsSafely s is t rs ∧ t.Consistent ∧ t.decPos = 0 ∧ encodedText is = [0x62, 0x63] ∧
      ∀ i ∈ is, s.KeepsCodes (encodedText is) i := by
  refine ⟨{ c3 with node := c3.node.set 2 .empty }, c3With [true, false, true, true],
    [.enc 0x62, .enc 0x63, .ldleaf 2 0x63], [0x0000000002000002, 0x0000000002000004, 0],
    inv_of_check (by decide), by decide, by decide, c3With_consistent _, by decide, by decide, ?_⟩
  simp only [List.mem_cons, List.not_mem_nil, or_false, forall_eq_or_imp, forall_eq]
  exact ⟨trivial, trivial, trivial⟩

/-! ### Control and status -/

theorem witness_NopHasNoEffect :
    c3.faulted = false ∧ c3.fcause = 0 ∧ c3Faulted.faulted = true ∧
    (0x0000000000000001#64).extractLsb 63 60 = 0x0#4 ∧
    (0x0000000000000001#64).extractLsb 59 0 ≠ 0#60 := by decide

theorem witness_SrstResetsTheBlock :
    (0x1800000000000000#64).extractLsb 63 60 = 0x1#4 ∧
    (0x1800000000000000#64).extractLsb 59 0 ≠ 0#60 ∧ c3.faulted = false ∧
    c3Faulted.faulted = true := by decide

/-- The last register, the first reserved SEL, and the lowest reserved bit. -/
theorem witness_StatReadsTheSelectedRegister :
    (11#4).toNat < 12 ∧ (0xE00000000000000C#64).extractLsb 63 60 = 0xE#4 ∧
    12 ≤ ((0xE00000000000000C#64).extractLsb 3 0).toNat ∧
    (0xE000000000000010#64).extractLsb 63 60 = 0xE#4 ∧
    (0xE000000000000010#64).extractLsb 59 4 ≠ 0#56 ∧ c3.faulted = false ∧
    c3Faulted.faulted = true := by decide

/-! ### Host conventions -/

/-- The lengths at which the assembler's clauses meet. -/
theorem witness_AssembledBitStringsAreReadBack :
    ([] : List Bool).length = 0 ∧ 1 ≤ [true].length ∧ (List.replicate 26 true).length ≤ 26 ∧
    26 < (List.replicate 27 true).length ∧ (List.replicate 32 true).length ≤ 32 ∧
    32 < (List.replicate 33 true).length := by decide

/-- Three digits fill the buffer. -/
theorem witness_PuthexAppendsFourBitsPerDigit :
    c3.Inv ∧ c3.faulted = false ∧
      c3.bsLen.toNat + 4 * [0xA#4, 0x5#4, 0xF#4].length = c3.params.bsCap :=
  ⟨inv_c3, by decide, by decide⟩

/-- Tree T3 of spec/95_test_vectors.md with table C3's indices. -/
def t3 : HostTree := .fork 4 (.leaf 0 0 0x61) (.fork 3 (.leaf 1 1 0x62) (.leaf 2 2 0x63))

/-- The tree of one symbol of program P1. -/
def p1 : HostTree := .leaf 0 0 0x61

/-- R114's commands for T3 are the setups of tables C3 and T3, node 3 before node 4. -/
theorem test_load_t3 :
    t3.load 0 = [.ldct 0 1 0b0 0x61, .ldct 1 2 0b10 0x62, .ldct 2 2 0b11 0x63] ++
      [.ldleaf 0 0x61, .ldleaf 1 0x62, .ldleaf 2 0x63, .ldint 3 1 2, .ldint 4 0 3, .setroot 4] := by
  decide

/-- Rows P1.1 to P1.4. -/
theorem test_load_p1 :
    (p1.load 1).map encode = [0x2000800000000061#64, 0x4000000000000061#64, 0x500400FFC0000000#64,
      0x6004000000000000#64] := by decide

theorem t3_fits : t3.Fits tiny 0 where
  ctis_lt       := by decide
  indices_lt    := by decide
  symbols_legal := by simp [t3, HostTree.symbols, IsSymbol, maxSymbol]
  ctis_nodup    := by decide
  indices_nodup := by decide
  symbols_nodup := by decide
  depth_le      := by decide
  parent_lt     := by decide

theorem p1_fits : p1.Fits tiny 1 where
  ctis_lt       := by decide
  indices_lt    := by decide
  symbols_legal := by simp [p1, HostTree.symbols, IsSymbol, maxSymbol]
  ctis_nodup    := by decide
  indices_nodup := by decide
  symbols_nodup := by decide
  depth_le      := by decide
  parent_lt     := by decide

theorem witness_AdvisedSizesHoldEveryTree :
    Params.Legal ⟨3, 5, 2, 1⟩ ∧ Params.HoldsEveryTree ⟨3, 5, 2, 1⟩ ∧ t3.leaves ≤ 3 ∧
    t3.code 0x63 = some [true, true] ∧
    Params.Legal ⟨1, 2, 1, 1⟩ ∧ Params.HoldsEveryTree ⟨1, 2, 1, 1⟩ ∧ p1.leaves ≤ 1 ∧
    p1.code 0x61 = some [false] := by decide

/-- The listed order, and T3's commands the other way round: SETROOT first, the leaves last but the codes. -/
theorem witness_LoadingATreeMakesTheTablesConsistent :
    Params.Legal tiny ∧ t3.Fits tiny 0 ∧ p1.Fits tiny 1 ∧ (p1.load 1).Perm (p1.load 1) ∧
    (t3.load 0).reverse.Perm (t3.load 0) ∧ (t3.load 0).reverse ≠ t3.load 0 :=
  ⟨by decide, t3_fits, p1_fits, .refl _, List.reverse_perm _, by decide⟩

/-- The text "bac" over T3 from a faulted state, and the text that fills the buffer. -/
theorem witness_UseSequenceEncodesAndDecodesTheText :
    c3Faulted.params.Legal ∧ t3.Fits c3Faulted.params 0 ∧
    (t3.load 0).reverse.Perm (t3.load 0) ∧
    [0x62, 0x61, 0x63].map t3.code = [[true, false], [false], [true, true]].map some ∧
    [[true, false], [false], [true, true]].flatten.length ≤ c3Faulted.params.bsCap ∧
    (List.replicate 6 0x63).map t3.code = (List.replicate 6 [true, true]).map some ∧
    (List.replicate 6 [true, true]).flatten.length = c3Faulted.params.bsCap :=
  ⟨by decide, t3_fits, List.reverse_perm _, by decide, by decide, by decide, by decide⟩

end Sys2Proof.Machine.Tests
end

/-! State and invariants (spec/10_state.md): what a reset leaves (R41), and the four invariants of R38 under
each operation and each command. -/

namespace Sys2Proof.Machine

variable {s t : State}

/-! ### Reading a cleared state, and reading past a response -/

namespace State

variable (s)

@[simp] theorem clear_ctAt (i : Nat) : s.clear.ctAt i = .invalid := by
  simp [ctAt]

@[simp] theorem clear_nodeAt (n : Nat) : s.clear.nodeAt n = .empty := by
  simp [nodeAt]

@[simp] theorem clear_bitStream : s.clear.bitStream = [] := by
  simp [bitStream]

@[simp] theorem respond_ctAt (st : Status) (d : RspData) (i : Nat) :
    (s.respond st d).ctAt i = s.ctAt i := rfl

@[simp] theorem respond_nodeAt (st : Status) (d : RspData) (n : Nat) :
    (s.respond st d).nodeAt n = s.nodeAt n := rfl

@[simp] theorem respond_bitStream (st : Status) (d : RspData) :
    (s.respond st d).bitStream = s.bitStream := rfl

end State

/-! ### How a step with reset asserted, a soft reset and a command word end -/

/-- With `rst_n` low a step clears the block, whatever transaction is outstanding (R235, R260). -/
theorem step_of_reset (hr : s.driveNow.rstN = false) : step s = .next s.nextDrive.clear := by
  simp [step, interfaceStep, hr]

theorem exec_srst : exec .srst s = .next (s.clear.respond .ok 0) := rfl

/-- How any command word can end: refused by a faulted block, with a fault of a running one, or with the
effect of the command it spells (R83, R233). -/
theorem executeWord_next {w : CmdWord} (h : executeWord w s = .next t) :
    (s.faulted = true ∧ t = s.refuse) ∨
    (s.faulted = false ∧ ∃ c info cmd, t = s.raise c info cmd) ∨
    ∃ i, decode w = .ok i ∧ Effect s i t := by
  cases hd : decode w with
  | ok i =>
    simp only [executeWord, hd] at h
    rcases exec_next h with hrefused | ⟨hf, c, info, ht⟩ | heffect
    · exact .inl hrefused
    · exact .inr (.inl ⟨hf, c, info, _, ht⟩)
    · exact .inr (.inr ⟨i, rfl, heffect⟩)
  | error _ =>
    simp only [executeWord, hd] at h
    rcases State.unlessFaulted_next h with hrefused | ⟨hf, ht⟩
    · exact .inl hrefused
    · exact .inr (.inl ⟨hf, _, _, _, ht⟩)

/-- No cause of R220 has the code 0, which is NONE. -/
theorem FaultCause.code_ne_zero (c : FaultCause) : c.code ≠ 0 := by
  cases c <;> decide

/-! ### R38's invariants under each operation -/

namespace State

theorem resetOf_positionsInRange (p : Params) : (State.resetOf p).PositionsInRange where
  len_le_cap := Nat.zero_le _
  dec_le_len := Nat.zero_le _
  hex_le_len := Nat.zero_le _
  cause_iff  := by simp [resetOf]

theorem clear_positionsInRange (s : State) : s.clear.PositionsInRange :=
  let ⟨hcap, hdec, hhex, hcause⟩ := resetOf_positionsInRange s.params
  ⟨hcap, hdec, hhex, hcause⟩

namespace PositionsInRange

theorem respond (h : s.PositionsInRange) (st : Status) (d : RspData) :
    (s.respond st d).PositionsInRange :=
  ⟨h.len_le_cap, h.dec_le_len, h.hex_le_len, h.cause_iff⟩

theorem refuse (h : s.PositionsInRange) : s.refuse.PositionsInRange :=
  h.respond .faulted 0

theorem writeCt (h : s.PositionsInRange) (i : Nat) (e : CtEntry) :
    (s.writeCt i e).PositionsInRange :=
  ⟨h.len_le_cap, h.dec_le_len, h.hex_le_len, h.cause_iff⟩

theorem writeNode (h : s.PositionsInRange) (n : Nat) (v : Node) :
    (s.writeNode n v).PositionsInRange :=
  ⟨h.len_le_cap, h.dec_le_len, h.hex_le_len, h.cause_iff⟩

theorem setRoot (h : s.PositionsInRange) (ni : NodeIx) :
    ({ s with root := ni } : State).PositionsInRange :=
  ⟨h.len_le_cap, h.dec_le_len, h.hex_le_len, h.cause_iff⟩

/-- A fault entry sets FAULTED and a cause that is not NONE (R220, R232). -/
theorem raise (h : s.PositionsInRange) (c : FaultCause) (info : Detail) (cmd : CmdWord) :
    (s.raise c info cmd).PositionsInRange :=
  ⟨h.len_le_cap, h.dec_le_len, h.hex_le_len, iff_of_false c.code_ne_zero (by simp)⟩

/-- Bits that fit below BS_CAP move BS_LEN up without a carry out of its 24 bits, and leave both
readers behind it. -/
theorem appendBits (h : s.PositionsInRange) (hp : s.params.Legal) {bits : List Bool}
    (hfit : s.bsLen.toNat + bits.length ≤ s.params.bsCap) :
    (s.appendBits bits).PositionsInRange := by
  obtain ⟨-, -, -, -, hcap⟩ := hp
  have hlen : (s.appendBits bits).bsLen.toNat = s.bsLen.toNat + bits.length := by
    rw [appendBits_bsLen, BitVec.toNat_ofNat, Nat.mod_eq_of_lt (by omega)]
  obtain ⟨-, hdec, hhex, hcause⟩ := h
  refine ⟨?_, ?_, ?_, hcause⟩
  · rw [hlen]; exact hfit
  · rw [hlen]; exact hdec.trans (Nat.le_add_right _ _)
  · rw [hlen, appendBits_hxIdx]; omega

theorem setDecPos (h : s.PositionsInRange) {pos : BitPos} (hpos : pos.toNat ≤ s.bsLen.toNat) :
    ({ s with decPos := pos } : State).PositionsInRange :=
  ⟨h.len_le_cap, hpos, h.hex_le_len, h.cause_iff⟩

theorem setHxIdx (h : s.PositionsInRange) {g : BitPos} (hg : 4 * g.toNat ≤ s.bsLen.toNat + 3) :
    ({ s with hxIdx := g } : State).PositionsInRange :=
  ⟨h.len_le_cap, h.dec_le_len, hg, h.cause_iff⟩

theorem emptyStream (h : s.PositionsInRange) :
    ({ s with bs := [], bsLen := 0, decPos := 0, hxIdx := 0 } : State).PositionsInRange :=
  ⟨Nat.zero_le _, Nat.zero_le _, Nat.zero_le _, h.cause_iff⟩

end PositionsInRange

/-- A walk that starts inside the BitStream lands inside it (R183). -/
theorem walk_landed_le_bsLen {cur : NodeIx} {sym : Sym} {pos : Nat}
    (hdec : s.decPos.toNat ≤ s.bsLen.toNat)
    (hw : s.walk (s.bitStream.drop s.decPos.toNat) s.decPos.toNat cur = .landed sym pos) :
    pos ≤ s.bsLen.toNat := by
  obtain ⟨-, hpos, -⟩ := walk_landed hw
  have hlen := s.bitStream_length_le
  rw [List.length_drop] at hpos
  omega

end State

/-- A group index below BS_LEN / 4 counts up without a carry out of its 24 bits. -/
theorem toNat_hxIdx_succ (h : 4 * s.hxIdx.toNat < s.bsLen.toNat) :
    (s.hxIdx + 1).toNat = s.hxIdx.toNat + 1 := by
  bv_omega

/-- Every command that executes keeps R38's invariants. -/
theorem Effect.positionsInRange {i : Instr} (he : Effect s i t) (hp : s.params.Legal)
    (h : s.PositionsInRange) : t.PositionsInRange := by
  cases he with
  | nop => exact h.respond _ _
  | srst => exact s.clear_positionsInRange.respond _ _
  | ldct => exact (h.writeCt _ _).respond _ _
  | ldleaf => exact (h.writeNode _ _).respond _ _
  | ldint => exact (h.writeNode _ _).respond _ _
  | setroot => exact (h.setRoot _).respond _ _
  | enc _ _ _ hfit => exact (h.appendBits hp (by simpa using hfit)).respond _ _
  | putbits _ _ hfit => exact (h.appendBits hp (by simpa using hfit)).respond _ _
  | decEnd => exact h.respond _ _
  | dec _ _ hw =>
    have hpos := State.walk_landed_le_bsLen h.dec_le_len hw
    refine (h.setDecPos ?_).respond _ _
    rw [BitVec.toNat_ofNat]
    exact (Nat.mod_le _ _).trans hpos
  | hexrdEnd => exact h.respond _ _
  | hexrd _ hlt =>
    refine (h.setHxIdx ?_).respond _ _
    rw [toNat_hxIdx_succ hlt]
    omega
  | bsclr => exact h.emptyStream.respond _ _
  | decrw => exact (h.setDecPos (Nat.zero_le _)).respond _ _
  | hexrw => exact (h.setHxIdx (Nat.zero_le _)).respond _ _
  | stat => exact h.respond _ _

/-- Settles O15: the four invariants hold at reset, and a command word, whether it is refused, faults or has
its effect, keeps them. -/
theorem positionsStayInRange : Obligations.PositionsStayInRange := by
  refine ⟨State.resetOf_positionsInRange, fun w s t hp h hw => ?_⟩
  rcases executeWord_next hw with ⟨-, rfl⟩ | ⟨-, c, info, cmd, rfl⟩ | ⟨i, -, he⟩
  · exact h.refuse
  · exact h.raise c info cmd
  · exact he.positionsInRange hp h

/-- Settles O12: a step with reset asserted and SRST both leave the cleared state, but for the response
and the host's drive. -/
theorem resetAndSrstLeaveTheResetValues : Obligations.ResetAndSrstLeaveTheResetValues := by
  rintro s t (⟨hr, h⟩ | h)
  · rw [step_of_reset hr, Host.Outcome.next.injEq] at h
    subst h
    simp
  · rw [exec_srst, Host.Outcome.next.injEq] at h
    subst h
    simp

end Sys2Proof.Machine

/-! Encoding (spec/30_encoding.md): which words spell which command (R93, R94), what an illegal word does
(R83), and the fields of a response (R95, R96). -/

namespace Sys2Proof

open Laws.Opcode (listed)

/-! ### The rows of R93's table -/

theorem opcodeTable_mnemonics_nodup : (opcodeTable.map (·.mnemonic)).Nodup := by decide

/-- A mnemonic names at most one row. -/
theorem row_eq_of_mnemonic_eq {r r' : OpcodeRow} (hr : r ∈ opcodeTable) (hr' : r' ∈ opcodeTable)
    (h : r.mnemonic = r'.mnemonic) : r = r' :=
  List.inj_on_of_nodup_map opcodeTable_mnemonics_nodup hr hr' h

/-- Every command has a row, whose pattern carries the command's opcode. -/
theorem exists_row (i : Instr) :
    ∃ r ∈ opcodeTable, r.mnemonic = i.mnemonic ∧ r.pattern.extractLsb 63 60 = listed i := by
  cases i <;> simp [opcodeTable, Instr.mnemonic, listed]

theorem listed_eq_of_mnemonic_eq {i j : Instr} (h : i.mnemonic = j.mnemonic) :
    listed i = listed j := by
  obtain ⟨r, hr, hri, hop⟩ := exists_row i
  obtain ⟨r', hr', hrj, hop'⟩ := exists_row j
  have hrr : r = r' := row_eq_of_mnemonic_eq hr hr' (hri.trans (h.trans hrj.symm))
  rw [← hop, ← hop', hrr]

/-! ### The decoder, opcode by opcode -/

theorem whenZero_eq_ok {n : Nat} {reserved : BitVec n} {i j : Instr} :
    whenZero reserved i = .ok j ↔ reserved = 0 ∧ i = j := by
  unfold whenZero
  split <;> rename_i hzero
  · simp [hzero]
  · simp [show ¬ reserved = 0#n from hzero]

theorem whenZero_ne_reservedOpcode {n : Nat} (reserved : BitVec n) (i : Instr) :
    whenZero reserved i ≠ .error .reservedOpcode := by
  unfold whenZero
  split <;> simp

/-- A word that spells a command carries the command's opcode. -/
theorem opcode_of_decode_eq_ok {w : CmdWord} {i : Instr} (h : decode w = .ok i) :
    w.extractLsb 63 60 = listed i := by
  rcases decode_ok h with ⟨hop, -, rfl⟩ | ⟨hop, -, rfl⟩ | ⟨hop, rfl⟩ | ⟨hop, -, rfl⟩ | ⟨hop, -, rfl⟩ |
    ⟨hop, -, rfl⟩ | ⟨hop, -, rfl⟩ | ⟨hop, -, rfl⟩ | ⟨hop, -, rfl⟩ | ⟨hop, -, rfl⟩ | ⟨hop, -, rfl⟩ |
    ⟨hop, -, rfl⟩ | ⟨hop, -, rfl⟩ | ⟨hop, -, rfl⟩
  all_goals exact hop

/-- The decoder rejects an opcode only for being 0x3 or 0xF (R83, R101). -/
theorem decode_eq_reservedOpcode_iff (w : CmdWord) :
    decode w = .error .reservedOpcode ↔
      w.extractLsb 63 60 = 0x3#4 ∨ w.extractLsb 63 60 = 0xF#4 := by
  constructor
  · intro h
    unfold decode at h
    split at h
    case h_15 =>
      have hlt : (opcode w).toNat < 16 := (opcode w).isLt
      simp only [imp_false] at *
      have hop : (opcode w).toNat = 3 ∨ (opcode w).toNat = 15 := by omega
      exact hop.imp BitVec.eq_of_toNat_eq BitVec.eq_of_toNat_eq
    case h_3 => simp at h
    all_goals exact absurd h (whenZero_ne_reservedOpcode _ _)
  · rintro (hop | hop) <;> simp [decode, opcode, hop]

/-! ### A word spells a command exactly when it matches the command's row (R94) -/

/-- The word spells a command with the mnemonic `m`. -/
def Spells (w : CmdWord) (m : String) : Prop := ∃ i, decode w = .ok i ∧ i.mnemonic = m

/-- Where the opcode of `i` leads the decoder to `i` and its reserved bits, `w` spells a command of that
name exactly when it has the opcode and those bits are 0. -/
theorem spells_iff_opcode_and_reserved {w : CmdWord} {op : BitVec 4} {i : Instr} {n : Nat}
    {reserved : BitVec n} (hop : listed i = op)
    (hdec : w.extractLsb 63 60 = op → decode w = whenZero reserved i) :
    Spells w i.mnemonic ↔ w.extractLsb 63 60 = op ∧ reserved = 0 := by
  constructor
  · rintro ⟨j, hj, hname⟩
    have hw : w.extractLsb 63 60 = op :=
      (opcode_of_decode_eq_ok hj).trans ((listed_eq_of_mnemonic_eq hname).trans hop)
    rw [hdec hw, whenZero_eq_ok] at hj
    exact ⟨hw, hj.1⟩
  · rintro ⟨hw, hzero⟩
    exact ⟨i, (hdec hw).trans (whenZero_eq_ok.2 ⟨hzero, rfl⟩), rfl⟩

/-- A row with reserved bits `[hi:lo]`. The defaults check, for a row at hand, that its opcode leads the
decoder to `i` and those bits, and that its mask and pattern are those of the two fields. -/
theorem spells_iff_matches_of_reserved (w : CmdWord) (op : BitVec 4) (i : Instr) (hi lo : Nat)
    {r : OpcodeRow} (hname : i.mnemonic = r.mnemonic := by rfl) (hop : listed i = op := by rfl)
    (hdec : w.extractLsb 63 60 = op → decode w = whenZero (w.extractLsb hi lo) i := by
      intro h; simp [decode, opcode, h])
    (hm : ∀ k < 64, r.mask.getLsbD k = decide (60 ≤ k ∨ (lo ≤ k ∧ k ≤ hi)) := by decide)
    (hp : ∀ k < 64, r.pattern.getLsbD k = (decide (60 ≤ k) && op.getLsbD (k - 60)) := by decide)
    (hh : hi < 60 := by decide) (hl : lo ≤ hi := by decide) :
    Spells w r.mnemonic ↔ r.Matches w := by
  rw [← hname, spells_iff_opcode_and_reserved hop hdec]
  exact (mask_iff w r.mask r.pattern op hi lo hm hp hh hl).symm

/-- LDCT's row: its format has no reserved bit, so the opcode decides alone. -/
theorem spells_ldct_iff_matches (w : CmdWord) :
    Spells w "LDCT" ↔ w &&& 0xF000000000000000#64 = 0x2000000000000000#64 := by
  rw [mask_op_iff w _ 0x2#4 (by decide)]
  have hspells := spells_iff_opcode_and_reserved (w := w) (op := 0x2#4) (reserved := 0#0)
    (i := .ldct (w.extractLsb 59 52) (w.extractLsb 51 47) (w.extractLsb 46 21) (w.extractLsb 20 0))
    rfl (fun h => by simp [decode, opcode, h, whenZero])
  exact hspells.trans (and_iff_left rfl)

/-- R94, row by row. -/
theorem spells_iff_matches (w : CmdWord) {r : OpcodeRow} (hr : r ∈ opcodeTable) :
    Spells w r.mnemonic ↔ r.Matches w := by
  simp only [opcodeTable, List.cons_append, List.nil_append, List.mem_cons, List.not_mem_nil,
    or_false] at hr
  rcases hr with rfl | rfl | rfl | rfl | rfl | rfl | rfl | rfl | rfl | rfl | rfl | rfl | rfl | rfl
  · exact spells_iff_matches_of_reserved w 0x0 .nop 59 0
  · exact spells_iff_matches_of_reserved w 0x1 .srst 59 0
  · exact spells_ldct_iff_matches w
  · exact spells_iff_matches_of_reserved w 0x4
      (.ldleaf (w.extractLsb 59 50) (w.extractLsb 20 0)) 49 21
  · exact spells_iff_matches_of_reserved w 0x5
      (.ldint (w.extractLsb 59 50) (w.extractLsb 49 40) (w.extractLsb 39 30)) 29 0
  · exact spells_iff_matches_of_reserved w 0x6 (.setroot (w.extractLsb 59 50)) 49 0
  · exact spells_iff_matches_of_reserved w 0x7 (.enc (w.extractLsb 20 0)) 59 21
  · exact spells_iff_matches_of_reserved w 0x8
      (.putbits (w.extractLsb 37 32) (w.extractLsb 31 0)) 59 38
  · exact spells_iff_matches_of_reserved w 0x9 .dec 59 0
  · exact spells_iff_matches_of_reserved w 0xA .hexrd 59 0
  · exact spells_iff_matches_of_reserved w 0xB .bsclr 59 0
  · exact spells_iff_matches_of_reserved w 0xC .decrw 59 0
  · exact spells_iff_matches_of_reserved w 0xD .hexrw 59 0
  · exact spells_iff_matches_of_reserved w 0xE (.stat (w.extractLsb 3 0)) 59 4

/-- A word spells one command at most, so it matches one row at most. -/
theorem row_eq_of_matches {w : CmdWord} {r r' : OpcodeRow} (hr : r ∈ opcodeTable)
    (hr' : r' ∈ opcodeTable) (h : r.Matches w) (h' : r'.Matches w) : r = r' := by
  obtain ⟨i, hi, hname⟩ := (spells_iff_matches w hr).2 h
  obtain ⟨j, hj, hname'⟩ := (spells_iff_matches w hr').2 h'
  obtain rfl : i = j := Except.ok.inj (hi.symm.trans hj)
  exact row_eq_of_mnemonic_eq hr hr' (hname.symm.trans hname')

/-- A word is illegal exactly when it matches no row. -/
theorem decode_eq_error_iff_no_row (w : CmdWord) :
    (∃ e, decode w = .error e) ↔ ∀ r ∈ opcodeTable, ¬ r.Matches w := by
  constructor
  · rintro ⟨e, he⟩ r hr hmatch
    obtain ⟨i, hi, -⟩ := (spells_iff_matches w hr).2 hmatch
    rw [he] at hi
    cases hi
  · intro h
    cases hd : decode w with
    | error e => exact ⟨e, rfl⟩
    | ok i =>
      obtain ⟨r, hr, hname, -⟩ := exists_row i
      exact absurd ((spells_iff_matches w hr).1 ⟨i, hd, hname.symm⟩) (h r hr)

/-- Settles O4: R94 row by row; the rest follows because the decoder gives at most one command and every
command has a row. -/
theorem wordSpellsCommandExactlyWhenItMatchesItsRow :
    Obligations.WordSpellsCommandExactlyWhenItMatchesItsRow := fun w =>
  ⟨fun _ hr => spells_iff_matches w hr, fun _ hr _ hr' => row_eq_of_matches hr hr',
    decode_eq_error_iff_no_row w, decode_eq_reservedOpcode_iff w⟩

end Sys2Proof

namespace Sys2Proof.Machine

variable {s t : State}

/-! ### Illegal words (R83) -/

theorem executeWord_of_decode_error {w : CmdWord} {e : DecodeError} (h : decode w = .error e) :
    executeWord w s = s.unlessFaulted (s.raise .illegalCmd 0 w) := by
  simp only [executeWord, h, execIllegal]

/-- Settles O5: a word that matches no row decodes to an error, and takes the illegal-command path. -/
theorem illegalWordFaultsOrIsRefused : Obligations.IllegalWordFaultsOrIsRefused := by
  intro w s hno
  obtain ⟨e, he⟩ := (decode_eq_error_iff_no_row w).2 hno
  have hrun := executeWord_of_decode_error (s := s) he
  exact ⟨fun hf => hrun.trans (s.unlessFaulted_of_running _ hf),
    fun hf => hrun.trans (s.unlessFaulted_of_faulted _ hf)⟩

/-! ### The fields of a response (R95, R96) -/

@[simp] theorem rspStatus_responseWord (st : Status) (c : BitVec 4) (d : RspData) :
    rspStatus (responseWord st c d) = st.code := by
  simp only [rspStatus, responseWord, BitVec.extractLsb]
  simp (disch := decide) only [BitVec.extractLsb'_append_eq_of_le]
  exact BitVec.extractLsb'_eq_self

@[simp] theorem rspCause_responseWord (st : Status) (c : BitVec 4) (d : RspData) :
    rspCause (responseWord st c d) = c := by
  simp only [rspCause, responseWord, BitVec.extractLsb]
  simp (disch := decide) only [BitVec.extractLsb'_append_eq_of_le]
  exact BitVec.extractLsb'_append_eq_right

/-- A command that has its effect answers OK or END, with FCAUSE as the command leaves it. -/
theorem Effect.answers_ok_or_end {i : Instr} (he : Effect s i t) :
    ∃ st d, (st = .ok ∨ st = .endOfData) ∧ t.txn = .answered (responseWord st t.fcause d) := by
  cases he with
  | decEnd | hexrdEnd => exact ⟨_, _, .inr rfl, rfl⟩
  | _ => exact ⟨_, _, .inl rfl, rfl⟩

/-- A command that has its effect leaves FCAUSE at 0, unless it is a STAT of a faulted block (R96). -/
theorem Effect.fcause_eq_zero_or_stat {i : Instr} (he : Effect s i t) (h : s.PositionsInRange) :
    t.fcause = 0 ∨ (s.faulted = true ∧ ∃ sel, i = .stat sel) := by
  cases he with
  | srst => exact .inl rfl
  | stat =>
    cases hf : s.faulted with
    | true => exact .inr ⟨rfl, _, rfl⟩
    | false => exact .inl (h.cause_iff.2 hf)
  | _ => exact .inl (h.cause_iff.2 ‹s.faulted = false›)

/-- Settles O11: by how the word ends, refused (FAULTED), with a fault (FAULT) or with its effect (OK or
END). -/
theorem responseCarriesTheCauseAfterTheCommand :
    Obligations.ResponseCarriesTheCauseAfterTheCommand := by
  intro w s t r hinv hw hr
  rcases executeWord_next hw with ⟨hf, rfl⟩ | ⟨hf, c, info, cmd, rfl⟩ | ⟨i, hd, he⟩
  · obtain rfl := Transaction.answered.inj hr
    simp [Status.code, hf]
  · obtain rfl := Transaction.answered.inj hr
    simpa [Status.code, hf] using c.code_ne_zero
  · obtain ⟨st, d, hst, ht⟩ := he.answers_ok_or_end
    obtain rfl := Transaction.answered.inj (ht.symm.trans hr)
    have hcause : t.fcause = 0 ∨ (s.faulted = true ∧ ∃ sel, decode w = .ok (.stat sel)) :=
      (he.fcause_eq_zero_or_stat hinv.positions).imp_right fun ⟨hf, sel, hi⟩ => ⟨hf, sel, hi ▸ hd⟩
    rcases hst with rfl | rfl <;> simpa [Status.code] using hcause

end Sys2Proof.Machine

/-! Table loading (spec/40_tables.md): SETROOT (R113), with the two ends it shares with other commands, the
plain OK response and the fault for a reserved bit. -/

namespace Sys2Proof

theorem whenZero_of_ne_zero {n : Nat} {reserved : BitVec n} (h : reserved ≠ 0) (i : Instr) :
    whenZero reserved i = .error .reservedBits :=
  if_neg h

theorem decode_of_opcode_setroot {w : CmdWord} (h : w.extractLsb 63 60 = 0x6#4) :
    decode w = whenZero (w.extractLsb 49 0) (.setroot (w.extractLsb 59 50)) := by
  simp [decode, opcode, h]

end Sys2Proof

namespace Sys2Proof.Machine

variable {s : State}

/-- OK with DATA 0 and no cause is the all-zero response word (R95). -/
theorem State.respond_ok_zero (h : s.fcause = 0) :
    s.respond .ok 0 = { s with txn := .answered 0 } := by
  unfold State.respond
  rw [h]
  rfl

/-- A running block faults ILLEGAL_CMD on a word with a reserved bit of its format set, with FINFO 0 and the
word in FCMD (R83). -/
theorem wordFaults_of_reserved_ne_zero {w : CmdWord} {n : Nat} {reserved : BitVec n} {i : Instr}
    (hdec : decode w = whenZero reserved i) (hres : reserved ≠ 0) (hf : s.faulted = false) :
    WordFaults w s 1 0 :=
  (executeWord_of_decode_error (hdec.trans (whenZero_of_ne_zero hres i))).trans
    (s.unlessFaulted_of_running _ hf)

theorem exec_setroot_of_lt {ni : NodeIx} (hf : s.faulted = false) (hni : ni.toNat < s.params.nNode) :
    exec (.setroot ni) s = .next (({ s with root := ni } : State).respond .ok 0) := by
  simp only [exec, execSetroot, s.unlessFaulted_of_running _ hf, if_neg hni.not_ge]

theorem exec_setroot_of_le {ni : NodeIx} (hf : s.faulted = false) (hni : s.params.nNode ≤ ni.toNat) :
    exec (.setroot ni) s = .next (s.raise .badIndex (ni.setWidth 48) (encode (.setroot ni))) := by
  simp only [exec, execSetroot, s.unlessFaulted_of_running _ hf, if_pos hni, indexDetail_zero]

/-- Settles O27: SETROOT's one check decides between the write of ROOT and BAD_INDEX, and a word with opcode
0x6 and a reserved bit set spells no command. -/
theorem setrootWritesRootOrFaults : Obligations.SetrootWritesRootOrFaults := by
  refine ⟨fun s ni hf => ⟨fun hni hcause => ?inRange, fun hni => ?outOfRange⟩,
    fun w s hf hop hres => ?reservedBit⟩
  case inRange =>
    rw [exec_setroot_of_lt hf hni, State.respond_ok_zero (s := { s with root := ni }) hcause]
  case outOfRange => exact exec_setroot_of_le hf hni
  case reservedBit => exact wordFaults_of_reserved_ne_zero (decode_of_opcode_setroot hop) hres hf

end Sys2Proof.Machine

/-! BitEncoder (spec/41_encoder.md): BSCLR (R143) and the concatenation law (R141), with what they rest on of
runs: a command's word runs the command, and every command of a safe run has its effect (R269). -/

namespace Sys2Proof

theorem decode_of_opcode_bsclr {w : CmdWord} (h : w.extractLsb 63 60 = 0xB#4) :
    decode w = whenZero (w.extractLsb 59 0) .bsclr := by
  simp [decode, opcode, h]

/-- The word of a command spells that command: its opcode selects the command's format, and each field stands
where the format reads it (R84 to R92). -/
theorem decode_encode (i : Instr) : decode (encode i) = .ok i := by
  have hop : opcode (encode i) = Laws.Opcode.listed i := Laws.Opcode.all i
  cases i with
  | ldct | ldleaf | ldint | setroot | enc | putbits | stat =>
    simp only [decode, hop, Laws.Opcode.listed, BitVec.reduceToNat]
    simp (disch := decide) only [encode, BitVec.extractLsb, BitVec.extractLsb'_append_eq_of_le,
      BitVec.extractLsb'_append_eq_of_add_le]
    simp [whenZero]
  | nop | srst | dec | hexrd | bsclr | decrw | hexrw => decide

end Sys2Proof

namespace Sys2Proof.Machine

variable {s s₀ t u : State} {i : Instr} {text : List Sym}

/-! ### BSCLR (R143) -/

theorem exec_bsclr (hf : s.faulted = false) :
    exec .bsclr s =
      .next (({ s with bs := [], bsLen := 0, decPos := 0, hxIdx := 0 } : State).respond .ok 0) := by
  simp only [exec, execBsclr, s.unlessFaulted_of_running _ hf]

/-- Settles O32: a BSCLR of a running block has its whole effect, and a word with opcode 0xB and a reserved
bit set spells no command. -/
theorem bsclrEmptiesTheStreamAndRewindsBothReaders :
    Obligations.BsclrEmptiesTheStreamAndRewindsBothReaders := by
  refine ⟨fun s hinv hf => ?effect, fun w s hf hop hres => ?reservedBit⟩
  case effect =>
    refine ⟨_, exec_bsclr hf, rfl, ?_⟩
    rw [State.respond_ok_zero (s := { s with bs := [], bsLen := 0, decPos := 0, hxIdx := 0 })
      (hinv.positions.cause_iff.2 hf)]
  case reservedBit => exact wordFaults_of_reserved_ne_zero (decode_of_opcode_bsclr hop) hres hf

/-! ### What every command keeps -/

/-- Only SRST changes FAULTED, of the commands that have their effect (R236). -/
theorem Effect.faulted_eq (he : Effect s i t) (hi : i ≠ .srst) : t.faulted = s.faulted := by
  cases he with
  | srst => exact absurd rfl hi
  | _ => rfl

/-- No command writes the parameters (R33). -/
theorem Effect.params_eq (he : Effect s i t) : t.params = s.params := by
  cases he <;> rfl

/-- Every command that executes keeps the canonical form of the storage. -/
theorem Effect.storageWf (he : Effect s i t) (hp : s.params.Legal) (h : s.StorageWf) :
    t.StorageWf := by
  obtain ⟨-, -, -, -, hcap⟩ := hp
  cases he with
  | srst => exact s.clear_storageWf
  | ldct => exact s.writeCt_storageWf _ _ h
  | ldleaf | ldint => exact s.writeNode_storageWf _ _ h
  | enc _ _ _ hfit | putbits _ _ hfit =>
    exact s.appendBits_storageWf _ h (by rw [bitString_length]; omega)
  | bsclr =>
    obtain ⟨hct, hnode, -⟩ := h
    exact ⟨hct, hnode, rfl⟩
  | _ => exact h

/-! ### Safe runs, command by command (R269) -/

theorem executeWord_encode (i : Instr) (s : State) : executeWord (encode i) s = exec i s := by
  simp only [executeWord, decode_encode]

/-- A transaction is the execution of the word and the response it leaves (R81). -/
theorem transact_eq_some {w : CmdWord} {r : RspWord} (h : transact s w = some (u, r)) :
    ∃ t, executeWord w s = .next t ∧ t.txn = .answered r ∧ u = { t with txn := .idle } := by
  unfold transact at h
  split at h
  · split at h
    · cases h
      exact ⟨_, ‹_›, ‹_›, rfl⟩
    · cases h
  · cases h

/-- A run of at least one word executes the first, takes its response, and is a run of the others (R269). -/
theorem runWords_cons_eq_some {w : CmdWord} {ws : List CmdWord} {rs : List RspWord}
    (h : runWords s (w :: ws) = some (t, rs)) :
    ∃ u r rs', executeWord w s = .next u ∧ u.txn = .answered r ∧
      runWords { u with txn := .idle } ws = some (t, rs') ∧ rs = r :: rs' := by
  unfold runWords at h
  split at h
  · cases h
  · rename_i htransact
    obtain ⟨u, hu, htxn, rfl⟩ := transact_eq_some htransact
    split at h
    · cases h
    · cases h
      exact ⟨u, _, _, hu, htxn, ‹_›, rfl⟩

/-- A faulted block stays faulted under every command but SRST (R233, R236). -/
theorem exec_keeps_faulted (h : exec i s = .next t) (hi : i ≠ .srst) (hf : s.faulted = true) :
    t.faulted = true := by
  rcases exec_next h with ⟨-, rfl⟩ | ⟨hrun, -⟩ | he
  · exact hf
  · simp [hf] at hrun
  · exact (he.faulted_eq hi).trans hf

theorem runWords_keeps_faulted {is : List Instr} {rs : List RspWord} (hsrst : ∀ i ∈ is, i ≠ .srst)
    (hf : s.faulted = true) (h : runWords s (is.map encode) = some (t, rs)) : t.faulted = true := by
  induction is generalizing s rs with
  | nil => cases h; exact hf
  | cons i is ih =>
    obtain ⟨hi, his⟩ := List.forall_mem_cons.1 hsrst
    obtain ⟨u, -, rs', hu, -, hrest, -⟩ := runWords_cons_eq_some h
    rw [executeWord_encode] at hu
    have huf : u.faulted = true := exec_keeps_faulted hu hi hf
    exact ih (s := { u with txn := .idle }) his huf hrest

/-- The first command of a safe run with no SRST after it has its effect: had it faulted or been refused, the
block would be faulted to the end (R233). -/
theorem RunsSafely.cons_inv {is : List Instr} {rs : List RspWord} (hsrst : ∀ j ∈ is, j ≠ .srst)
    (h : RunsSafely s (i :: is) t rs) :
    ∃ u rs', Effect s i u ∧ RunsSafely { u with txn := .idle } is t rs' := by
  obtain ⟨hrun, hsafe⟩ := h
  obtain ⟨u, -, rs', hu, -, hrest, -⟩ := runWords_cons_eq_some hrun
  rw [executeWord_encode] at hu
  refine ⟨u, rs', ?_, hrest, hsafe⟩
  have hrunning : u.faulted ≠ true := fun huf => by
    simpa [hsafe] using runWords_keeps_faulted (s := { u with txn := .idle }) hsrst huf hrest
  rcases exec_next hu with ⟨hf, rfl⟩ | ⟨-, c, info, rfl⟩ | he
  · exact absurd hf hrunning
  · exact absurd rfl hrunning
  · exact he

/-! ### The concatenation law (R141) -/

namespace State

/-- A valid entry gives `sym` the code `bits` (R10, R21). -/
def HasCode (s : State) (sym : Sym) (bits : List Bool) : Prop :=
  ∃ i len code, i < s.params.nSym ∧ s.ctAt i = .valid sym len code ∧ bits = bitString len.toNat code

/-- A state on the way of a run from `s₀` that encodes `text`: each code it gives a symbol of the text is a
code `s₀` gives it. -/
structure EncodesAs (s₀ : State) (text : List Sym) (s : State) : Prop where
  params_legal : s.params.Legal
  storage      : s.StorageWf
  codes        : ∀ sym ∈ text, ∀ bits, s.HasCode sym bits → s₀.HasCode sym bits

/-- The code ENC looks up is one the table gives the symbol (R140). -/
theorem hasCode_of_codeOf {sym : Sym} {len : BitVec 5} {code : CodeBits}
    (h : s.codeOf sym = some (len, code)) : s.HasCode sym (bitString len.toNat code) :=
  let ⟨i, hi, hat⟩ := s.codeOf_some h
  ⟨i, len, code, hi, hat, rfl⟩

end State

theorem State.KeepsCodes.ne_srst (hk : s₀.KeepsCodes text i) : i ≠ .srst := by
  rintro rfl
  exact hk

/-- A command that keeps the codes of `text` gives its symbols no new code: an LDCT is of another symbol. -/
theorem Effect.hasCode (he : Effect s i t) (h : s.StorageWf) (hk : s₀.KeepsCodes text i) {sym : Sym}
    (hsym : sym ∈ text) {bits : List Bool} (ht : t.HasCode sym bits) : s.HasCode sym bits := by
  cases he with
  | @ldct cti len code other _ hcti =>
    obtain ⟨j, len', code', hj, hat, rfl⟩ := ht
    rw [State.respond_ctAt, s.ctAt_writeCt _ _ _ (h.1.symm ▸ hcti)] at hat
    split at hat
    · cases hat
      exact absurd hsym hk.1
    · exact ⟨j, len', code', hj, hat, rfl⟩
  | srst | bsclr | putbits => exact hk.elim
  | _ => exact ht

theorem Effect.encodesAs (he : Effect s i t) (h : s₀.EncodesAs text s) (hk : s₀.KeepsCodes text i) :
    s₀.EncodesAs text t where
  params_legal := he.params_eq ▸ h.params_legal
  storage := he.storageWf h.params_legal h.storage
  codes sym hsym bits ht := h.codes sym hsym bits (he.hasCode h.storage hk hsym ht)

theorem encodedText_cons (i : Instr) (is : List Instr) :
    encodedText (i :: is) = encodedText [i] ++ encodedText is :=
  List.filterMap_append (l := [i])

/-- One command appends the code of the symbol it encodes, if it is an ENC, and nothing otherwise. -/
theorem Effect.appends_codes (he : Effect s i t) (h : s₀.EncodesAs text s)
    (hk : s₀.KeepsCodes text i) (hsub : encodedText [i] ⊆ text) :
    ∃ codes, List.Forall₂ s₀.HasCode (encodedText [i]) codes ∧
      t.bitStream = s.bitStream ++ codes.flatten := by
  cases he with
  | @enc sym len code _ _ hcode hfit =>
    obtain ⟨-, -, -, -, hcap⟩ := h.params_legal
    have hs₀ : s₀.HasCode sym (bitString len.toNat code) :=
      h.codes sym (hsub (List.mem_singleton_self sym)) _ (State.hasCode_of_codeOf hcode)
    refine ⟨[bitString len.toNat code], .cons hs₀ .nil, ?_⟩
    rw [State.respond_bitStream, s.bitStream_appendBits _ h.storage (by rw [bitString_length]; omega),
      List.flatten_singleton]
  | srst | bsclr | putbits => exact hk.elim
  | _ => exact ⟨[], .nil, (List.append_nil _).symm⟩

/-- R141 from any stream: a safe run appends the codes of the symbols it encodes, in order. -/
theorem RunsSafely.appends_codes {is : List Instr} {rs : List RspWord} (hrun : RunsSafely s is t rs)
    (h : s₀.EncodesAs text s) (hk : ∀ i ∈ is, s₀.KeepsCodes text i) (hsub : encodedText is ⊆ text) :
    t.StorageWf ∧ ∃ codes, List.Forall₂ s₀.HasCode (encodedText is) codes ∧
      t.bitStream = s.bitStream ++ codes.flatten := by
  induction is generalizing s rs with
  | nil =>
    cases hrun.1
    exact ⟨h.storage, [], .nil, (List.append_nil _).symm⟩
  | cons i is ih =>
    obtain ⟨hi, his⟩ := List.forall_mem_cons.1 hk
    rw [encodedText_cons] at hsub ⊢
    obtain ⟨hfirst, hrest⟩ := List.append_subset.1 hsub
    obtain ⟨u, rs', he, hrun'⟩ := cons_inv (fun j hj => (his j hj).ne_srst) hrun
    obtain ⟨codes, hcodes, hu⟩ := he.appends_codes h hi hfirst
    have hu' : s₀.EncodesAs text { u with txn := .idle } :=
      let ⟨hp, hw, hc⟩ := he.encodesAs h hi
      ⟨hp, hw, hc⟩
    obtain ⟨hw, codes', hcodes', ht⟩ := ih hrun' hu' his hrest
    refine ⟨hw, codes ++ codes', List.rel_append hcodes hcodes', ?_⟩
    calc t.bitStream = u.bitStream ++ codes'.flatten := ht
      _ = s.bitStream ++ (codes ++ codes').flatten := by
        rw [hu, List.append_assoc, List.flatten_append]

/-- Settles O33: the law from any stream, at the empty one; BS_LEN is the length of the BitStream. -/
theorem encodingATextConcatenatesItsCodes : Obligations.EncodingATextConcatenatesItsCodes := by
  intro s t is rs hinv hempty hrun hk
  have hstart : s.EncodesAs (encodedText is) s :=
    ⟨hinv.params_legal, hinv.storage, fun _ _ _ h => h⟩
  obtain ⟨hw, codes, hcodes, ht⟩ := RunsSafely.appends_codes hrun hstart hk (List.Subset.refl _)
  have hnil : s.bitStream = [] := by simp [State.bitStream, hempty]
  rw [hnil, List.nil_append] at ht
  refine ⟨codes, hcodes, ht, ?_⟩
  have ⟨_, _, hlen⟩ := hw
  rw [← List.length_flatten, ← ht, t.bitStream_eq hw, hlen]

end Sys2Proof.Machine

/-! HexPacker (spec/42_hexpacker.md): HexDigit's table (R162) and HEXRW (R161), with the decoding of the
commands that have no operand. -/

namespace Sys2Proof

/-- The commands with no operand: bits 59:0 of their format are reserved (R93). -/
def operandless : List Instr := [.nop, .srst, .dec, .hexrd, .bsclr, .decrw, .hexrw]

theorem decode_of_operandless {w : CmdWord} {i : Instr} (hi : i ∈ operandless)
    (hop : w.extractLsb 63 60 = Laws.Opcode.listed i) :
    decode w = whenZero (w.extractLsb 59 0) i := by
  simp only [operandless, List.mem_cons, List.not_mem_nil, or_false] at hi
  rcases hi with rfl | rfl | rfl | rfl | rfl | rfl | rfl
  all_goals simp [decode, opcode, hop, Laws.Opcode.listed]

end Sys2Proof

namespace Sys2Proof.Machine

variable {s : State}

/-- Settles O34: the definition is R162's table, and its 16 rows are checked one by one. -/
theorem hexDigitIsUppercaseAscii : Obligations.HexDigitIsUppercaseAscii := by
  unfold Obligations.HexDigitIsUppercaseAscii
  decide

theorem exec_hexrw (hf : s.faulted = false) :
    exec .hexrw s = .next (({ s with hxIdx := 0 } : State).respond .ok 0) := by
  simp only [exec, execHexrw, s.unlessFaulted_of_running _ hf]

/-- Settles O37: a HEXRW of a running block has its whole effect, and a word with opcode 0xD and a reserved
bit set spells no command. -/
theorem hexrwRewindsThePacker : Obligations.HexrwRewindsThePacker := by
  refine ⟨fun s hf hcause => ?effect, fun w s hf hop hres => ?reservedBit⟩
  case effect => rw [exec_hexrw hf, State.respond_ok_zero (s := { s with hxIdx := 0 }) hcause]
  case reservedBit =>
    have hdec : decode w = whenZero (w.extractLsb 59 0) .hexrw :=
      decode_of_operandless (by simp [operandless]) hop
    exact wordFaults_of_reserved_ne_zero hdec hres hf

end Sys2Proof.Machine

/-! BitDecoder (spec/43_decoder.md): DECRW (R181) and the round-trip law (R182), with what they rest on of
DEC: a path to a LEAF is walked to its end (R180), and an exhausted stream answers END (R231). -/

namespace Sys2Proof.Machine

variable {s s₀ t u : State} {i : Instr} {text : List Sym}

/-! ### DECRW (R181) -/

theorem exec_decrw (hf : s.faulted = false) :
    exec .decrw s = .next (({ s with decPos := 0 } : State).respond .ok 0) := by
  simp only [exec, execDecrw, s.unlessFaulted_of_running _ hf]

/-- Settles O44: a DECRW of a running block has its whole effect, and a word with opcode 0xC and a reserved
bit set spells no command. -/
theorem decrwRewindsTheDecoder : Obligations.DecrwRewindsTheDecoder := by
  refine ⟨fun s hf hcause => ?effect, fun w s hf hop hres => ?reservedBit⟩
  case effect => rw [exec_decrw hf, State.respond_ok_zero (s := { s with decPos := 0 }) hcause]
  case reservedBit =>
    have hdec : decode w = whenZero (w.extractLsb 59 0) .decrw :=
      decode_of_operandless (by simp [operandless]) hop
    exact wordFaults_of_reserved_ne_zero hdec hres hf

/-! ### What the codes of a text become in a safe run -/

/-- An invariant that every command of a run keeps where it has its effect, the response taken, holds at the
end of a safe run. -/
theorem RunsSafely.induct {P : State → Prop} {is : List Instr} {rs : List RspWord}
    (hrun : RunsSafely s is t rs) (hsrst : ∀ i ∈ is, i ≠ .srst)
    (hstep : ∀ i ∈ is, ∀ a b, Effect a i b → P a → P { b with txn := .idle }) (hs : P s) : P t := by
  induction is generalizing s rs with
  | nil =>
    cases hrun.1
    exact hs
  | cons i is ih =>
    obtain ⟨-, his⟩ := List.forall_mem_cons.1 hsrst
    obtain ⟨hi, hrest⟩ := List.forall_mem_cons.1 hstep
    obtain ⟨u, rs', he, hrun'⟩ := cons_inv his hrun
    exact ih hrun' his hrest (hi s u he hs)

namespace State

theorem ctAt_writeCt_of_ne {i j : Nat} (e : CtEntry) (h : j ≠ i) :
    (s.writeCt i e).ctAt j = s.ctAt j := by
  simp only [ctAt, writeCt_ct, List.getD_eq_getElem?_getD, List.getElem?_set_ne h.symm]

/-- The entries that hold the symbols of `text` in `s₀` stand unchanged in `s`. -/
structure KeepsEntries (s₀ : State) (text : List Sym) (s : State) : Prop where
  params_eq : s.params = s₀.params
  ctAt_eq   : ∀ i, ∀ sym ∈ text, (s₀.ctAt i).sym? = some sym → s.ctAt i = s₀.ctAt i

theorem KeepsEntries.hasCode (h : s₀.KeepsEntries text s) {sym : Sym} (hsym : sym ∈ text)
    {bits : List Bool} (hcode : s₀.HasCode sym bits) : s.HasCode sym bits := by
  obtain ⟨i, len, code, hi, hat, rfl⟩ := hcode
  have hkept : s.ctAt i = s₀.ctAt i := h.ctAt_eq i sym hsym (by rw [hat]; rfl)
  exact ⟨i, len, code, h.params_eq.symm ▸ hi, hkept.trans hat, rfl⟩

end State

/-- A command that keeps the codes of `text` leaves their entries alone: an LDCT is into another entry. -/
theorem Effect.keepsEntries (he : Effect s i t) (hk : s₀.KeepsCodes text i)
    (h : s₀.KeepsEntries text s) : s₀.KeepsEntries text t where
  params_eq := he.params_eq.trans h.params_eq
  ctAt_eq j sym hsym hat := by
    have hs : s.ctAt j = s₀.ctAt j := h.ctAt_eq j sym hsym hat
    cases he with
    | @ldct cti =>
      obtain ⟨-, hother⟩ := hk
      have hne : j ≠ cti.toNat := fun hj => hother sym hsym (hj ▸ hat)
      rw [State.respond_ctAt, State.ctAt_writeCt_of_ne _ hne, hs]
    | srst | bsclr | putbits => exact hk.elim
    | _ => exact hs

theorem RunsSafely.keepsEntries {is : List Instr} {rs : List RspWord} (hrun : RunsSafely s is t rs)
    (hk : ∀ i ∈ is, s.KeepsCodes text i) : s.KeepsEntries text t := by
  refine RunsSafely.induct hrun (fun i hi => (hk i hi).ne_srst) (fun i hi a b he ha => ?_)
    ⟨rfl, fun _ _ _ _ => rfl⟩
  obtain ⟨hparams, hentries⟩ := he.keepsEntries (hk i hi) ha
  exact ⟨hparams, hentries⟩

/-! ### DEC along a path to a LEAF, and at the end of the stream (R180, R231) -/

namespace State

/-- In a consistent state a code leads from ROOT to its symbol (R115). -/
theorem Consistent.leadsTo (h : s.Consistent) {sym : Sym} {bits : List Bool}
    (hcode : s.HasCode sym bits) : s.LeadsTo s.root bits sym := by
  obtain ⟨i, len, code, hi, hat, rfl⟩ := hcode
  obtain ⟨hcodes, -⟩ := h
  exact hcodes i sym len code hi hat

/-! What a path passes and where it leads depend on N_NODE and the node table alone. -/

theorem childNode_congr (hp : t.params = s.params) (hn : t.node = s.node) (ix : NodeIx) :
    t.childNode ix = s.childNode ix := by
  unfold childNode nodeAt
  rw [hp, hn]

theorem passes_congr (hp : t.params = s.params) (hn : t.node = s.node) {cur cur' : NodeIx}
    {bits : List Bool} : t.Passes cur bits cur' ↔ s.Passes cur bits cur' := by
  induction bits generalizing cur with
  | nil => exact Iff.rfl
  | cons b rest ih => simp only [Passes, childNode_congr hp hn, nodeAt, hn, ih]

theorem LeadsTo.congr {cur : NodeIx} {bits : List Bool} {sym : Sym} (h : s.LeadsTo cur bits sym)
    (hp : t.params = s.params) (hn : t.node = s.node) : t.LeadsTo cur bits sym := by
  simpa only [LeadsTo, passes_congr hp hn, childNode_congr hp hn, nodeAt, hn] using h

/-- The walk over a path to a LEAF lands there, whatever bits follow (R180). -/
theorem walk_of_leadsTo {cur : NodeIx} {bits : List Bool} {sym : Sym} (h : s.LeadsTo cur bits sym)
    (rest : List Bool) (pos : Nat) :
    s.walk (bits ++ rest) pos cur = .landed sym (pos + bits.length) := by
  obtain ⟨before, bit, cur', rfl, hpass, hleaf⟩ := h
  induction before generalizing cur pos with
  | nil =>
    obtain rfl : cur = cur' := hpass
    simp [walk, hleaf]
  | cons b before ih =>
    obtain ⟨⟨l, r, hinternal⟩, hrest⟩ := hpass
    simp only [List.cons_append, walk, hinternal, ih _ hrest, List.length_cons]
    congr 1
    omega

/-- A node with a valid child is not EMPTY. -/
theorem nodeAt_ne_empty_of_childNode {n : Nat} {bit : Bool}
    (h : s.childNode ((s.nodeAt n).child bit) ≠ .empty) : s.nodeAt n ≠ .empty := by
  intro hempty
  simp [hempty, Node.child, childNode] at h

theorem nodeAt_ne_empty_of_leadsTo {cur : NodeIx} {bits : List Bool} {sym : Sym}
    (h : s.LeadsTo cur bits sym) : s.nodeAt cur.toNat ≠ .empty := by
  obtain ⟨before, bit, cur', -, hpass, hleaf⟩ := h
  cases before with
  | nil =>
    obtain rfl : cur = cur' := hpass
    exact nodeAt_ne_empty_of_childNode (by rw [hleaf]; nofun)
  | cons b before =>
    obtain ⟨⟨l, r, hinternal⟩, -⟩ := hpass
    exact nodeAt_ne_empty_of_childNode (by rw [hinternal]; nofun)

theorem lt_nNode_of_nodeAt_ne_empty (hw : s.StorageWf) {n : Nat} (h : s.nodeAt n ≠ .empty) :
    n < s.params.nNode := by
  obtain ⟨-, hnode, -⟩ := hw
  by_contra hge
  exact h (List.getD_eq_default _ _ (by omega))

theorem LeadsTo.length_pos {cur : NodeIx} {bits : List Bool} {sym : Sym}
    (h : s.LeadsTo cur bits sym) : 0 < bits.length := by
  obtain ⟨before, bit, -, rfl, -⟩ := h
  simp

end State

theorem exec_dec_of_end (hf : s.faulted = false) (hend : s.decPos = s.bsLen) :
    exec .dec s = .next (s.respond .endOfData (atPosition s.decPos 0)) := by
  simp only [exec, execDec, s.unlessFaulted_of_running _ hf, if_pos hend]

/-- DEC with a path to a LEAF ahead answers OK with its symbol and moves past the path, inside the stream and
so without a carry out of DEC_POS (R180). -/
theorem exec_dec_of_leadsTo (hw : s.StorageWf) (hf : s.faulted = false) {bits rest : List Bool}
    {sym : Sym} (hdrop : s.bitStream.drop s.decPos.toNat = bits ++ rest)
    (hlead : s.LeadsTo s.root bits sym) :
    ∃ pos : BitPos, pos.toNat = s.decPos.toNat + bits.length ∧ pos.toNat ≤ s.bsLen.toNat ∧
      exec .dec s =
        .next (({ s with decPos := pos } : State).respond .ok (atPosition pos (0#3 ++ sym))) := by
  have hbits := hlead.length_pos
  have hle := s.bitStream_length_le
  have hlen := congrArg List.length hdrop
  rw [List.length_drop, List.length_append] at hlen
  have hpos : (BitVec.ofNat 24 (s.decPos.toNat + bits.length)).toNat =
      s.decPos.toNat + bits.length := by
    rw [BitVec.toNat_ofNat, Nat.mod_eq_of_lt (by omega)]
  refine ⟨_, hpos, by omega, ?_⟩
  have hmore : s.decPos ≠ s.bsLen := fun h => by
    rw [h] at hlen
    omega
  have hroot := State.nodeAt_ne_empty_of_leadsTo hlead
  have hgood : ¬ (s.params.nNode ≤ s.root.toNat ∨ s.nodeAt s.root.toNat = .empty) :=
    not_or.2 ⟨(State.lt_nNode_of_nodeAt_ne_empty hw hroot).not_ge, hroot⟩
  simp only [exec, execDec, s.unlessFaulted_of_running _ hf, if_neg hmore, if_neg hgood, hdrop,
    State.walk_of_leadsTo hlead]

/-! ### The round-trip law (R182) -/

theorem transact_encode {r : RspWord} (h : exec i s = .next t) (htxn : t.txn = .answered r) :
    transact s (encode i) = some ({ t with txn := .idle }, r) := by
  simp only [transact, executeWord_encode, h, htxn]

theorem runWords_cons {w : CmdWord} {ws : List CmdWord} {r : RspWord} {rs : List RspWord}
    (h : transact s w = some (t, r)) (hrest : runWords t ws = some (u, rs)) :
    runWords s (w :: ws) = some (u, r :: rs) := by
  simp only [runWords, h, hrest]

/-- SYM of a DEC response is at [20:0] (R97). -/
theorem extractLsb_sym_responseWord (st : Status) (c : BitVec 4) (pos : BitPos) (sym : Sym) :
    (responseWord st c (atPosition pos (0#3 ++ sym))).extractLsb 20 0 = sym := by
  simp only [responseWord, atPosition, BitVec.extractLsb]
  simp (disch := decide) only [BitVec.extractLsb'_append_eq_of_add_le]
  exact BitVec.extractLsb'_eq_self

/-- The bits from DEC_POS to the end of the stream are paths from ROOT to the symbols of `text`, in order. -/
structure State.Decodes (s : State) (text : List Sym) : Prop where
  storage    : s.StorageWf
  running    : s.faulted = false
  dec_le_len : s.decPos.toNat ≤ s.bsLen.toNat
  paths      : ∃ codes, List.Forall₂ (fun sym bits => s.LeadsTo s.root bits sym) text codes ∧
    s.bitStream.drop s.decPos.toNat = codes.flatten

theorem State.Decodes.decPos_eq_bsLen (h : s.Decodes []) : s.decPos = s.bsLen := by
  obtain ⟨hw, -, hle, codes, hcodes, hdrop⟩ := h
  have ⟨_, _, hlen⟩ := hw
  cases hcodes
  have hall : s.bsLen.toNat ≤ s.decPos.toNat := by
    rw [← hlen, ← s.bitStream_eq hw]
    exact List.drop_eq_nil_iff.1 hdrop
  exact BitVec.eq_of_toNat_eq (hle.antisymm hall)

/-- One DEC gives the first symbol, and the others are still to come. -/
theorem State.Decodes.transact_dec {sym : Sym} (h : s.Decodes (sym :: text)) :
    ∃ u r, transact s (encode .dec) = some (u, r) ∧ rspStatus r = 0#4 ∧
      r.extractLsb 20 0 = sym ∧ u.Decodes text := by
  obtain ⟨hw, hf, -, codes, hcodes, hdrop⟩ := h
  cases hcodes with
  | @cons _ bits _ codes hlead hrest =>
    rw [List.flatten_cons] at hdrop
    obtain ⟨pos, hpos, hle, hexec⟩ := exec_dec_of_leadsTo hw hf hdrop hlead
    refine ⟨_, _, transact_encode hexec rfl, rspStatus_responseWord _ _ _,
      extractLsb_sym_responseWord _ _ _ _, hw, hf, hle, codes, ?_, ?_⟩
    · exact hrest.imp fun sym bits hl => hl.congr rfl rfl
    · calc s.bitStream.drop pos.toNat = (s.bitStream.drop s.decPos.toNat).drop bits.length := by
            rw [hpos, List.drop_drop]
        _ = codes.flatten := by rw [hdrop, List.drop_left]

/-- As many DECs as symbols give the text, symbol by symbol, and leave nothing to decode. -/
theorem State.Decodes.runWords_dec (h : s.Decodes text) :
    ∃ u outs, runWords s (List.replicate text.length (encode .dec)) = some (u, outs) ∧
      u.Decodes [] ∧ outs.map rspStatus = text.map (fun _ => 0#4) ∧
      outs.map (fun r => r.extractLsb 20 0) = text := by
  induction text generalizing s with
  | nil => exact ⟨s, [], rfl, h, rfl, rfl⟩
  | cons sym text ih =>
    obtain ⟨t, r, ht, hstatus, hsym, hrest⟩ := h.transact_dec
    obtain ⟨u, outs, hrun, hdone, hstatuses, hsyms⟩ := ih hrest
    refine ⟨u, r :: outs, runWords_cons ht hrun, hdone, ?_, ?_⟩
    · rw [List.map_cons, hstatus, hstatuses, List.map_cons]
    · rw [List.map_cons, hsym, hsyms]

theorem transact_dec_end (hf : s.faulted = false) (hend : s.decPos = s.bsLen) :
    ∃ v r, transact s (encode .dec) = some (v, r) ∧ rspStatus r = 1 ∧ v.faulted = false :=
  ⟨_, _, transact_encode (exec_dec_of_end hf hend) rfl, rspStatus_responseWord _ _ _, hf⟩

/-- After a safe run that encodes `text` into an empty stream and ends in a consistent state, the stream holds
the codes the run appended (R141), and they are the codes of the final table still. -/
theorem RunsSafely.decodes {is : List Instr} {rs : List RspWord} (hinv : s.Inv) (hempty : s.bsLen = 0)
    (hrun : RunsSafely s is t rs) (hcons : t.Consistent) (hpos : t.decPos = 0)
    (hk : ∀ i ∈ is, s.KeepsCodes (encodedText is) i) : t.Decodes (encodedText is) := by
  have hstart : s.EncodesAs (encodedText is) s :=
    ⟨hinv.params_legal, hinv.storage, fun _ _ _ h => h⟩
  have hnil : s.bitStream = [] := by simp [State.bitStream, hempty]
  obtain ⟨hw, codes, hcodes, ht⟩ := RunsSafely.appends_codes hrun hstart hk (List.Subset.refl _)
  have hkept : s.KeepsEntries (encodedText is) t := RunsSafely.keepsEntries hrun hk
  obtain ⟨-, hrunning⟩ := hrun
  refine ⟨hw, hrunning, by simp [hpos], codes, ?paths, by simp [hpos, ht, hnil]⟩
  have hmem : List.Forall₂ (fun sym bits => sym ∈ encodedText is ∧ s.HasCode sym bits)
      (encodedText is) codes := (List.forall₂_and_left _ _).2 ⟨fun _ h => h, hcodes⟩
  exact hmem.imp fun sym bits ⟨hsym, hcode⟩ => hcons.leadsTo (hkept.hasCode hsym hcode)

/-- Settles O46: the encoded stream decodes to the text, and a stream with nothing left answers END. -/
theorem decodingAnEncodedTextGivesTheText : Obligations.DecodingAnEncodedTextGivesTheText := by
  refine ⟨fun s t is rs hinv hempty hrun hcons hpos hk => ?text, fun s hinv hf hempty => ?noText⟩
  case text =>
    have hdecodes : t.Decodes (encodedText is) :=
      RunsSafely.decodes hinv hempty hrun hcons hpos hk
    obtain ⟨u, outs, hdecs, hdone, hstatuses, hsyms⟩ := hdecodes.runWords_dec
    exact ⟨u, outs, hdecs, hdone.running, hstatuses, hsyms,
      transact_dec_end hdone.running hdone.decPos_eq_bsLen⟩
  case noText =>
    have hdec : s.decPos.toNat ≤ s.bsLen.toNat := hinv.positions.dec_le_len
    exact transact_dec_end hf (by bv_omega)

end Sys2Proof.Machine

/-! Control and status (spec/44_control.md): NOP (R200), SRST (R201) and STAT (R202), with the encoding of a
decoded word and the two ends of a word that has no effect, the fault and the refusal. -/

namespace Sys2Proof

theorem decode_of_opcode_stat {w : CmdWord} (h : w.extractLsb 63 60 = 0xE#4) :
    decode w = whenZero (w.extractLsb 59 4) (.stat (w.extractLsb 3 0)) := by
  simp [decode, opcode, h]

/-- A word that spells a command is that command's word: the opcode, the reserved bits and the fields that
the encoder writes join to the whole word (R83 to R92). -/
theorem encode_of_decode {w : CmdWord} {i : Instr} (h : decode w = .ok i) : encode i = w := by
  rcases decode_ok h with ⟨hop, hres, rfl⟩ | ⟨hop, hres, rfl⟩ | ⟨hop, rfl⟩ | ⟨hop, hres, rfl⟩ |
    ⟨hop, hres, rfl⟩ | ⟨hop, hres, rfl⟩ | ⟨hop, hres, rfl⟩ | ⟨hop, hres, rfl⟩ | ⟨hop, hres, rfl⟩ |
    ⟨hop, hres, rfl⟩ | ⟨hop, hres, rfl⟩ | ⟨hop, hres, rfl⟩ | ⟨hop, hres, rfl⟩ | ⟨hop, hres, rfl⟩
  -- LDCT, the format without a reserved bit
  case inr.inr.inl =>
    rw [encode, ← hop]
    simp only [BitVec.extractLsb, Nat.reduceAdd, Nat.reduceSub]
    repeat rw [fields_join (h := by rfl)]
    exact BitVec.extractLsb'_eq_self
  all_goals
    rw [encode, ← hop, ← hres]
    simp only [BitVec.extractLsb, Nat.reduceAdd, Nat.reduceSub]
    repeat rw [fields_join (h := by rfl)]
    exact BitVec.extractLsb'_eq_self

end Sys2Proof

namespace Sys2Proof.Machine

variable {s : State}

/-! ### Words without an effect (R83, R233) -/

/-- On the illegal-command path a running block faults ILLEGAL_CMD and a faulted one refuses (R83). -/
theorem wordFaults_and_wordRefused_of_illegal {w : CmdWord}
    (hrun : executeWord w s = s.unlessFaulted (s.raise .illegalCmd 0 w)) :
    (s.faulted = false → WordFaults w s 1 0) ∧ (s.faulted = true → WordRefused w s) :=
  ⟨fun hf => hrun.trans (s.unlessFaulted_of_running _ hf),
    fun hf => hrun.trans (s.unlessFaulted_of_faulted _ hf)⟩

/-- A faulted block refuses a word if it refuses the command the word spells, if it spells one (R233). -/
theorem wordRefused_of_faulted {w : CmdWord} (hf : s.faulted = true)
    (hexec : ∀ i, decode w = .ok i → exec i s = .next s.refuse) : WordRefused w s := by
  cases hd : decode w with
  | ok i =>
    have hrun : executeWord w s = exec i s := by simp only [executeWord, hd]
    exact hrun.trans (hexec i hd)
  | error e =>
    exact (wordFaults_and_wordRefused_of_illegal (executeWord_of_decode_error hd)).2 hf

/-! ### NOP (R200) -/

theorem exec_nop : exec .nop s = s.unlessFaulted (s.respond .ok 0) := rfl

/-- Settles O47: a NOP of a running block only answers, and a word with opcode 0x0 spells NOP or, with a
reserved bit set, no command; a faulted block refuses both. -/
theorem nopHasNoEffect : Obligations.NopHasNoEffect := by
  refine ⟨fun s hf hcause => ?effect, rfl, fun w s hop => ?words⟩
  case effect => rw [exec_nop, s.unlessFaulted_of_running _ hf, State.respond_ok_zero hcause]
  case words =>
    have hdec : decode w = whenZero (w.extractLsb 59 0) .nop :=
      decode_of_operandless (by simp [operandless]) hop
    refine ⟨fun hf hres => wordFaults_of_reserved_ne_zero hdec hres hf,
      fun hf => wordRefused_of_faulted hf fun i hi => ?_⟩
    obtain ⟨-, rfl⟩ := whenZero_eq_ok.1 (hdec.symm.trans hi)
    rw [exec_nop, s.unlessFaulted_of_faulted _ hf]

/-! ### SRST (R201) -/

/-- Settles O48: SRST clears the block and answers OK whatever the state, and a word with opcode 0x1 and a
reserved bit set spells no command. -/
theorem srstResetsTheBlock : Obligations.SrstResetsTheBlock := by
  refine ⟨fun s => ?effect, fun w s hop hres => ?reservedBit⟩
  case effect => rw [exec_srst, State.respond_ok_zero s.clear_fcause, State.clear]
  case reservedBit =>
    have hdec : decode w = whenZero (w.extractLsb 59 0) .srst :=
      decode_of_operandless (by simp [operandless]) hop
    exact wordFaults_and_wordRefused_of_illegal
      (executeWord_of_decode_error (hdec.trans (whenZero_of_ne_zero hres _)))

/-! ### STAT (R202) -/

/-- R91's table gives each selector below 12 a register. -/
theorem exists_statSel_eq {sel : BitVec 4} (h : sel.toNat < 12) : ∃ r, statSel r = sel := by
  refine ⟨[StatReg.bsLen, .decPos, .hxIdx, .root, .fcause, .finfo, .fcmdHi, .fcmdLo, .nSym, .nNode, .maxLen,
    .bsCap][sel.toNat], ?_⟩
  revert sel
  decide

@[simp] theorem statReg_statSel (r : StatReg) : statReg (statSel r) = some r := by
  cases r <;> rfl

/-- R91's table gives no selector from 12 up a register. -/
theorem statReg_eq_none {sel : BitVec 4} (h : 12 ≤ sel.toNat) : statReg sel = none := by
  revert sel
  decide

theorem exec_stat_of_register (r : StatReg) :
    exec (.stat (statSel r)) s = .next (s.respond .ok (s.statValue r)) := by
  simp only [exec, execStat, statReg_statSel]

theorem exec_stat_of_reserved {sel : BitVec 4} (h : 12 ≤ sel.toNat) :
    exec (.stat sel) s = s.unlessFaulted (s.raise .illegalCmd 0 (encode (.stat sel))) := by
  simp only [exec, execStat, statReg_eq_none h]

/-- A word with opcode 0xE and a reserved bit or a reserved SEL takes the illegal-command path, with the word
itself for FCMD (R202). -/
theorem executeWord_of_illegal_stat {w : CmdWord} (hop : w.extractLsb 63 60 = 0xE#4)
    (hbad : w.extractLsb 59 4 ≠ 0 ∨ 12 ≤ (w.extractLsb 3 0).toNat) :
    executeWord w s = s.unlessFaulted (s.raise .illegalCmd 0 w) := by
  have hdec := decode_of_opcode_stat hop
  by_cases hres : w.extractLsb 59 4 = 0
  · have hstat : decode w = .ok (.stat (w.extractLsb 3 0)) := hdec.trans (if_pos hres)
    have hrun : executeWord w s = exec (.stat (w.extractLsb 3 0)) s := by
      simp only [executeWord, hstat]
    rw [hrun, exec_stat_of_reserved (hbad.resolve_left (not_not.2 hres)), encode_of_decode hstat]
  · exact executeWord_of_decode_error (hdec.trans (whenZero_of_ne_zero hres _))

/-- Settles O49: each selector below 12 reads the register at its place in R91's table, and every other word
with opcode 0xE takes the illegal-command path. -/
theorem statReadsTheSelectedRegister : Obligations.StatReadsTheSelectedRegister := by
  refine ⟨fun s sel hsel => ?register, fun w s hop hbad => ?illegal⟩
  case register =>
    obtain ⟨r, rfl⟩ := exists_statSel_eq hsel
    rw [exec_stat_of_register]
    cases r <;> rfl
  case illegal => exact wordFaults_and_wordRefused_of_illegal (executeWord_of_illegal_stat hop hbad)

end Sys2Proof.Machine

/-! Faults and reset (spec/60_exceptions.md): what a fault entry writes (R232), what a faulted block refuses
(R233), and a reset while a command is outstanding (R235). -/

namespace Sys2Proof.Machine

variable {s t : State} {i : Instr}

/-! ### Fault entry (R232) -/

/-- No command that has its effect raises a fault. -/
theorem Effect.faulted_eq_false (he : Effect s i t) (hf : s.faulted = false) : t.faulted = false := by
  cases he with
  | srst => rfl
  | _ => exact hf

/-- A running block enters the faulted state only by a fault entry, which takes the executed word for
FCMD. -/
theorem eq_raise_of_executeWord_faults {w : CmdWord} (hf : s.faulted = false)
    (hw : executeWord w s = .next t) (ht : t.faulted = true) : ∃ c info, t = s.raise c info w := by
  cases hd : decode w with
  | ok i =>
    obtain rfl : encode i = w := encode_of_decode hd
    rw [executeWord_encode] at hw
    rcases exec_next hw with ⟨hfaulted, -⟩ | ⟨-, hraise⟩ | he
    · simp [hf] at hfaulted
    · exact hraise
    · simp [he.faulted_eq_false hf] at ht
  | error e =>
    rw [executeWord_of_decode_error hd, s.unlessFaulted_of_running _ hf, Host.Outcome.next.injEq] at hw
    exact ⟨_, _, hw.symm⟩

/-- Settles O18: the state after the fault is that of a fault entry for the word. -/
theorem faultEntryChangesOnlyTheFaultRecord : Obligations.FaultEntryChangesOnlyTheFaultRecord := by
  intro w s t hf hw ht
  obtain ⟨c, info, rfl⟩ := eq_raise_of_executeWord_faults hf hw ht
  exact ⟨ht, c, info, hw⟩

/-! ### The faulted block (R233) -/

/-- A faulted block refuses every command but SRST and the STAT of a register of R91's table. -/
theorem exec_of_faulted (hf : s.faulted = true) (hsrst : i ≠ .srst)
    (hstat : ∀ sel : BitVec 4, sel.toNat < 12 → i ≠ .stat sel) : exec i s = .next s.refuse := by
  cases i with
  | srst => exact absurd rfl hsrst
  | stat sel =>
    have hsel : 12 ≤ sel.toNat := Nat.le_of_not_lt fun hlt => hstat sel hlt rfl
    exact (exec_stat_of_reserved hsel).trans (s.unlessFaulted_of_faulted _ hf)
  | _ => exact s.unlessFaulted_of_faulted _ hf

/-- Settles O19: a word that is not the word of SRST or of a legal STAT spells neither. -/
theorem faultedBlockRefusesAllButSrstAndStat : Obligations.FaultedBlockRefusesAllButSrstAndStat := by
  intro w s hf hsrst hstat
  refine wordRefused_of_faulted hf fun i hd => ?_
  obtain rfl : encode i = w := encode_of_decode hd
  exact exec_of_faulted hf (fun hi => hsrst (congrArg encode hi))
    fun sel hsel hi => hstat sel hsel (congrArg encode hi)

/-! ### Reset while a transaction is outstanding (R235, R260) -/

theorem cmdReady_of_reset (hr : s.driveNow.rstN = false) : s.cmdReady = false := by
  simp [State.cmdReady, hr]

theorem rspOffered_of_reset (hr : s.driveNow.rstN = false) : s.rspOffered = none := by
  unfold State.rspOffered
  split
  · simp [hr]
  · rfl

/-- Settles O8: with reset asserted a step clears the block, and both handshakes are held off. -/
theorem resetWinsOverTheOutstandingCommand : Obligations.ResetWinsOverTheOutstandingCommand :=
  fun _ hr => ⟨step_of_reset hr, cmdReady_of_reset hr, rspOffered_of_reset hr⟩

end Sys2Proof.Machine

/-! Encoding (spec/30_encoding.md): the words of the test vectors, and decoder and encoder as each other's
inverses (R84 to R93). -/

namespace Sys2Proof

/-- Settles O2: the word of a command spells it, format by format. -/
theorem decodeOfEncodeGivesTheCommand : Obligations.DecodeOfEncodeGivesTheCommand :=
  decode_encode

/-- Settles O3: opcode, reserved bits and fields join to the whole word. -/
theorem encodeOfDecodeGivesTheWord : Obligations.EncodeOfDecodeGivesTheWord :=
  fun _ _ => encode_of_decode

/-- Settles O1: the twelve listed words, each decoded. -/
theorem listedWordsDecodeToTheirCommands : Obligations.ListedWordsDecodeToTheirCommands := by
  unfold Obligations.ListedWordsDecodeToTheirCommands
  decide

end Sys2Proof

/-! The invariant of the block (spec/10_state.md): at reset, under each operation and each command, and under
every step of the interface. -/

namespace Sys2Proof.Machine

variable {s t : State}

/-! ### Symbols that stand at one place at most (R39, R40) -/

/-- No two places below `n` hold the same symbol: what R39 says of the code table and R40 of the leaves. -/
def UniqueBelow (n : Nat) (symAt : Nat → Option Sym) : Prop :=
  ∀ i < n, ∀ j < n, symAt i ≠ none → symAt i = symAt j → i = j

theorem State.codesUnique_iff : s.CodesUnique ↔ UniqueBelow s.params.nSym fun i => (s.ctAt i).sym? :=
  Iff.rfl

theorem State.leavesUnique_iff :
    s.LeavesUnique ↔ UniqueBelow s.params.nNode fun n => (s.nodeAt n).sym? :=
  Iff.rfl

/-- Writing one place keeps the symbols unique if no other place holds the symbol written. -/
theorem UniqueBelow.write {n : Nat} {symAt : Nat → Option Sym} (h : UniqueBelow n symAt) (place : Nat)
    {new : Option Sym} (hnew : ∀ j < n, j ≠ place → new ≠ none → symAt j ≠ new) :
    UniqueBelow n fun j => if j = place then new else symAt j := by
  intro i hi j hj hne heq
  by_cases hip : i = place <;> by_cases hjp : j = place
  · rw [hip, hjp]
  · simp only [if_pos hip, if_neg hjp] at hne heq
    exact absurd heq.symm (hnew j hj hjp hne)
  · simp only [if_neg hip, if_pos hjp] at hne heq
    exact absurd heq (hnew i hi hip (heq ▸ hne))
  · simp only [if_neg hip, if_neg hjp] at hne heq
    exact h i hi j hj hne heq

/-- The codes of R220's table end at 10. -/
theorem FaultCause.toNat_code_le (c : FaultCause) : c.code.toNat ≤ 10 := by
  cases c <;> decide

namespace State

theorem writeCt_codesUnique (h : s.CodesUnique) (hw : s.StorageWf) {i : Nat} {sym : Sym}
    {len : BitVec 5} {code : CodeBits} (hi : i < s.params.nSym)
    (hfree : s.findCode (some i) sym = none) :
    (s.writeCt i (.valid sym len code)).CodesUnique := by
  have hread : (fun j => ((s.writeCt i (.valid sym len code)).ctAt j).sym?) =
      fun j => if j = i then some sym else (s.ctAt j).sym? := by
    funext j
    rw [s.ctAt_writeCt _ _ _ (hw.1.symm ▸ hi), apply_ite CtEntry.sym?]
    rfl
  rw [codesUnique_iff, hread]
  exact UniqueBelow.write h i fun j hj hne _ => s.findCode_none.1 hfree j hj (by simpa using hne)

theorem writeNode_leavesUnique (h : s.LeavesUnique) (hw : s.StorageWf) {n : Nat} {v : Node}
    (hn : n < s.params.nNode)
    (hfree : ∀ j < s.params.nNode, j ≠ n → v.sym? ≠ none → (s.nodeAt j).sym? ≠ v.sym?) :
    (s.writeNode n v).LeavesUnique := by
  have hread : (fun j => ((s.writeNode n v).nodeAt j).sym?) =
      fun j => if j = n then v.sym? else (s.nodeAt j).sym? := by
    funext j
    rw [s.nodeAt_writeNode _ _ _ (hw.2.1.symm ▸ hn), apply_ite Node.sym?]
  rw [leavesUnique_iff, hread]
  exact UniqueBelow.write h n hfree

/-! ### The invariant at reset and under each operation -/

theorem resetOf_inv {p : Params} (hp : p.Legal) : (State.resetOf p).Inv where
  params_legal  := hp
  storage       := resetOf_storageWf p
  positions     := resetOf_positionsInRange p
  codes_unique  := by simp [CodesUnique, ctAt, resetOf, CtEntry.sym?]
  leaves_unique := by simp [LeavesUnique, nodeAt, resetOf, Node.sym?]
  codes_stored e he := by
    obtain rfl := List.eq_of_mem_replicate he
    trivial
  nodes_stored n hn := by
    obtain rfl := List.eq_of_mem_replicate hn
    trivial
  root_stored   := .inl rfl
  cause_known   := Nat.zero_le _
  record_clear  := fun _ => ⟨rfl, rfl⟩

namespace Inv

/-- The invariant says nothing of the outstanding transaction and of the host's drive. -/
theorem atInterface (h : s.Inv) (txn : Transaction) (drive : List HostDrive) :
    ({ s with txn := txn, drive := drive } : State).Inv :=
  { h with positions := { h.positions with } }

theorem respond (h : s.Inv) (st : Status) (d : RspData) : (s.respond st d).Inv :=
  h.atInterface _ _

theorem refuse (h : s.Inv) : s.refuse.Inv :=
  h.respond _ _

theorem clear (h : s.Inv) : s.clear.Inv :=
  (resetOf_inv h.params_legal).atInterface _ _

/-- A fault entry writes a cause of R220's table and sets FAULTED. -/
theorem raise (h : s.Inv) (c : FaultCause) (info : Detail) (cmd : CmdWord) :
    (s.raise c info cmd).Inv :=
  { h with
    positions := h.positions.raise c info cmd
    cause_known := c.toNat_code_le
    record_clear := nofun }

theorem writeCt (h : s.Inv) {i : Nat} {sym : Sym} {len : BitVec 5} {code : CodeBits}
    (hi : i < s.params.nSym) (hlen : ¬ BadCodeLength s.params len code) (hsym : IsSymbol sym)
    (hfree : s.findCode (some i) sym = none) : (s.writeCt i (.valid sym len code)).Inv :=
  { h with
    storage := s.writeCt_storageWf _ _ h.storage
    positions := h.positions.writeCt _ _
    codes_unique := writeCt_codesUnique h.codes_unique h.storage hi hfree
    codes_stored := fun e he => by
      rcases List.mem_or_eq_of_mem_set he with he | rfl
      · exact h.codes_stored e he
      · exact ⟨hsym, hlen⟩ }

theorem writeNode (h : s.Inv) {n : Nat} {v : Node} (hn : n < s.params.nNode)
    (hv : v.Stored s.params)
    (hfree : ∀ j < s.params.nNode, j ≠ n → v.sym? ≠ none → (s.nodeAt j).sym? ≠ v.sym?) :
    (s.writeNode n v).Inv :=
  { h with
    storage := s.writeNode_storageWf _ _ h.storage
    positions := h.positions.writeNode _ _
    leaves_unique := writeNode_leavesUnique h.leaves_unique h.storage hn hfree
    nodes_stored := fun e he => by
      rcases List.mem_or_eq_of_mem_set he with he | rfl
      · exact h.nodes_stored e he
      · exact hv }

theorem setRoot (h : s.Inv) {ni : NodeIx} (hni : ni.toNat < s.params.nNode) :
    ({ s with root := ni } : State).Inv :=
  { h with
    positions := h.positions.setRoot ni
    root_stored := .inr hni }

theorem appendBits (h : s.Inv) {bits : List Bool}
    (hfit : s.bsLen.toNat + bits.length ≤ s.params.bsCap) : (s.appendBits bits).Inv :=
  have ⟨_, _, _, _, hcap⟩ := h.params_legal
  { h with
    storage := s.appendBits_storageWf bits h.storage (by omega)
    positions := h.positions.appendBits h.params_legal hfit }

theorem setDecPos (h : s.Inv) {pos : BitPos} (hpos : pos.toNat ≤ s.bsLen.toNat) :
    ({ s with decPos := pos } : State).Inv :=
  { h with positions := h.positions.setDecPos hpos }

theorem setHxIdx (h : s.Inv) {g : BitPos} (hg : 4 * g.toNat ≤ s.bsLen.toNat + 3) :
    ({ s with hxIdx := g } : State).Inv :=
  { h with positions := h.positions.setHxIdx hg }

theorem emptyStream (h : s.Inv) :
    ({ s with bs := [], bsLen := 0, decPos := 0, hxIdx := 0 } : State).Inv :=
  { h with
    storage := ⟨h.storage.1, h.storage.2.1, rfl⟩
    positions := h.positions.emptyStream }

end Inv

end State

/-! ### Every command and every step keeps it -/

/-- Every command that has its effect keeps the invariant. -/
theorem Effect.inv {i : Instr} (he : Effect s i t) (h : s.Inv) : t.Inv := by
  have hpos : t.PositionsInRange := he.positionsInRange h.params_legal h.positions
  cases he with
  | nop => exact h.respond _ _
  | srst => exact h.clear.respond _ _
  | ldct _ hi hlen hsym hfree => exact (h.writeCt hi hlen hsym hfree).respond _ _
  | ldleaf _ hn hsym hfree =>
    exact (h.writeNode (v := .leaf _) hn hsym fun j hj hne _ =>
      s.findLeaf_none.1 hfree j hj hne).respond _ _
  | ldint _ hn hl hr =>
    exact (h.writeNode (v := .internal _ _) hn ⟨hl, hr⟩ fun _ _ _ hsym => absurd rfl hsym).respond _ _
  | setroot _ hni => exact (h.setRoot hni).respond _ _
  | enc _ _ _ hfit => exact (h.appendBits (by simpa using hfit)).respond _ _
  | putbits _ _ hfit => exact (h.appendBits (by simpa using hfit)).respond _ _
  | decEnd => exact h.respond _ _
  | dec => exact (h.setDecPos hpos.dec_le_len).respond _ _
  | hexrdEnd => exact h.respond _ _
  | hexrd => exact (h.setHxIdx hpos.hex_le_len).respond _ _
  | bsclr => exact h.emptyStream.respond _ _
  | decrw => exact (h.setDecPos hpos.dec_le_len).respond _ _
  | hexrw => exact (h.setHxIdx hpos.hex_le_len).respond _ _
  | stat => exact h.respond _ _

theorem executeWord_inv {w : CmdWord} (hw : executeWord w s = .next t) (h : s.Inv) : t.Inv := by
  rcases executeWord_next hw with ⟨-, rfl⟩ | ⟨-, c, info, cmd, rfl⟩ | ⟨i, -, he⟩
  · exact h.refuse
  · exact h.raise c info cmd
  · exact he.inv h

/-! ### The interface: what a step does in each state of the handshake (R80, R81, R270) -/

theorem step_of_accepted {w : CmdWord} (hr : s.driveNow.rstN = true) (htxn : s.txn = .accepted w) :
    step s = executeWord w s.nextDrive := by
  simp only [step, interfaceStep, hr, htxn, if_true]

theorem step_of_offered {w : CmdWord} (hr : s.driveNow.rstN = true) (htxn : s.txn = .idle)
    (hcmd : s.driveNow.cmd = some w) : step s = .next { s.nextDrive with txn := .accepted w } := by
  simp only [step, interfaceStep, hr, htxn, hcmd, if_true]

theorem step_of_not_offered (hr : s.driveNow.rstN = true) (htxn : s.txn = .idle)
    (hcmd : s.driveNow.cmd = none) : step s = .next s.nextDrive := by
  simp only [step, interfaceStep, hr, htxn, hcmd, if_true]

theorem step_of_taken {r : RspWord} (hr : s.driveNow.rstN = true) (htxn : s.txn = .answered r)
    (hready : s.driveNow.rspReady = true) : step s = .next { s.nextDrive with txn := .idle } := by
  simp only [step, interfaceStep, hr, htxn, hready, if_true]

theorem step_of_not_taken {r : RspWord} (hr : s.driveNow.rstN = true) (htxn : s.txn = .answered r)
    (hready : s.driveNow.rspReady = false) : step s = .next s.nextDrive := by
  simp [step, interfaceStep, hr, htxn, hready]

/-- What any step can end in: the cleared block, the same block with its transaction and the drive moved on,
or the end of the accepted word. -/
theorem step_next (h : step s = .next t) :
    (s.driveNow.rstN = false ∧ t = s.nextDrive.clear) ∨
    (∃ txn, t = { s with txn := txn, drive := s.drive.tail }) ∨
    ∃ w, s.txn = .accepted w ∧ executeWord w s.nextDrive = .next t := by
  cases hr : s.driveNow.rstN with
  | false =>
    rw [step_of_reset hr, Host.Outcome.next.injEq] at h
    exact .inl ⟨rfl, h.symm⟩
  | true =>
    refine .inr ?_
    cases htxn : s.txn with
    | accepted w => exact .inr ⟨w, rfl, (step_of_accepted hr htxn).symm.trans h⟩
    | idle =>
      cases hcmd : s.driveNow.cmd with
      | some w =>
        rw [step_of_offered hr htxn hcmd, Host.Outcome.next.injEq] at h
        exact .inl ⟨_, h.symm⟩
      | none =>
        rw [step_of_not_offered hr htxn hcmd, Host.Outcome.next.injEq] at h
        exact .inl ⟨s.txn, h.symm⟩
    | answered r =>
      cases hready : s.driveNow.rspReady with
      | true =>
        rw [step_of_taken hr htxn hready, Host.Outcome.next.injEq] at h
        exact .inl ⟨_, h.symm⟩
      | false =>
        rw [step_of_not_taken hr htxn hready, Host.Outcome.next.injEq] at h
        exact .inl ⟨s.txn, h.symm⟩

/-- Settles O14: a step clears the block, moves the interface alone, or ends the accepted word. -/
theorem stepKeepsTheInvariant : Obligations.StepKeepsTheInvariant := by
  intro s t hinv h
  have hdrive : s.nextDrive.Inv := hinv.atInterface _ _
  rcases step_next h with ⟨-, rfl⟩ | ⟨txn, rfl⟩ | ⟨w, -, hw⟩
  · exact hdrive.clear
  · exact hinv.atInterface _ _
  · exact executeWord_inv hw hdrive

/-- Settles O13: the reference configuration is a legal one. -/
theorem resetStateSatisfiesTheInvariant : Obligations.ResetStateSatisfiesTheInvariant :=
  ⟨fun _ hp => State.resetOf_inv hp, State.resetOf_inv (by decide)⟩

/-- Settles O6: the accepted word is executed on the state whose drive has moved on. -/
theorem stepRunsTheAcceptedCommand : Obligations.StepRunsTheAcceptedCommand := by
  intro s w htxn hr
  have hstep : step s = executeWord w s.nextDrive := step_of_accepted hr htxn
  refine ⟨fun i hd => ?_, fun e hd => ?_⟩
  · rw [hstep]
    simp only [executeWord, hd, State.nextDrive]
  · rw [hstep]
    simp only [executeWord, hd, State.nextDrive]

/-- Settles O7: the step of each state of the handshake, and the two outputs. -/
theorem handshakeMovesOneTransactionAtATime : Obligations.HandshakeMovesOneTransactionAtATime := by
  refine fun s hr => ⟨?ready, fun w => step_of_offered hr, step_of_not_offered hr, fun r htxn =>
    ⟨?offered, step_of_taken hr htxn, step_of_not_taken hr htxn⟩⟩
  case ready => simp [State.cmdReady, hr]
  case offered => simp [State.rspOffered, hr, htxn]

end Sys2Proof.Machine

/-! What commands write and answer: the frame of each command (R21 to R33), the BitStream and the fault record
(R22, R27, R236), and the one response of every word (R81, R95, R183). -/

namespace Sys2Proof.Machine

variable {s t : State} {i : Instr} {w : CmdWord}

/-! ### The frame (R21 to R33) -/

theorem Effect.drive_eq (he : Effect s i t) : t.drive = s.drive := by
  cases he <;> rfl

/-- A command that has its effect leaves the fault record alone, unless it is SRST. -/
theorem Effect.record_eq (he : Effect s i t) (hi : i ≠ .srst) :
    t.faulted = s.faulted ∧ t.fcause = s.fcause ∧ t.finfo = s.finfo ∧ t.fcmd = s.fcmd := by
  cases he with
  | srst => exact absurd rfl hi
  | _ => exact ⟨rfl, rfl, rfl, rfl⟩

/-- The tables, ROOT, the bit buffer and the two positions are each written by their own commands. -/
theorem Effect.storage_frame (he : Effect s i t) (hi : i ≠ .srst) :
    ((∀ a b c d, i ≠ .ldct a b c d) → t.ct = s.ct) ∧
    ((∀ a b, i ≠ .ldleaf a b) → (∀ a b c, i ≠ .ldint a b c) → t.node = s.node) ∧
    ((∀ a, i ≠ .setroot a) → t.root = s.root) ∧
    ((∀ a, i ≠ .enc a) → (∀ a b, i ≠ .putbits a b) → i ≠ .bsclr →
      t.bs = s.bs ∧ t.bsLen = s.bsLen) ∧
    (i ≠ .dec → i ≠ .decrw → i ≠ .bsclr → t.decPos = s.decPos) ∧
    (i ≠ .hexrd → i ≠ .hexrw → i ≠ .bsclr → t.hxIdx = s.hxIdx) := by
  cases he with
  | srst => exact absurd rfl hi
  | _ => simp

/-- Settles O16: a refusal writes the response alone, a fault entry the fault record besides, and an effect
what its command owns. -/
theorem eachCommandWritesOnlyItsState : Obligations.EachCommandWritesOnlyItsState := by
  intro i s t h hi
  rcases exec_next h with ⟨hf, rfl⟩ | ⟨hf, c, info, rfl⟩ | he
  · simp
  · simp [hf]
  · obtain ⟨hct, hnode, hroot, hbs, hdec, hhex⟩ := he.storage_frame hi
    exact ⟨he.params_eq, he.drive_eq, hct, hnode, hroot, hbs, hdec, hhex, fun _ => he.record_eq hi⟩

/-- Settles O17: ENC and PUTBITS append, and no other command but BSCLR and SRST writes the bit buffer. -/
theorem bitStreamOnlyGrowsAtItsEnd : Obligations.BitStreamOnlyGrowsAtItsEnd := by
  intro i s t hinv h hbsclr hsrst
  rcases exec_next h with ⟨-, rfl⟩ | ⟨-, c, info, rfl⟩ | he
  · exact List.prefix_rfl
  · exact List.prefix_rfl
  · have ⟨_, _, _, _, hcap⟩ := hinv.params_legal
    cases he with
    | srst => exact absurd rfl hsrst
    | bsclr => exact absurd rfl hbsclr
    | enc _ _ _ hfit | putbits _ _ hfit =>
      rw [State.respond_bitStream, s.bitStream_appendBits _ hinv.storage (by rw [bitString_length]; omega)]
      exact List.prefix_append _ _
    | _ => exact List.prefix_rfl

/-- Settles O20: the interface does not touch the fault record, and a faulted block keeps it under every
accepted word but that of SRST. -/
theorem onlySrstOrResetLeavesTheFaultedState : Obligations.OnlySrstOrResetLeavesTheFaultedState := by
  intro s t hf h hr hsrst
  rcases step_next h with ⟨hlow, -⟩ | ⟨txn, rfl⟩ | ⟨w, htxn, hw⟩
  · simp [hr] at hlow
  · exact ⟨hf, rfl, rfl, rfl⟩
  · rcases executeWord_next hw with ⟨-, rfl⟩ | ⟨hrun, -⟩ | ⟨i, hd, he⟩
    · exact ⟨hf, rfl, rfl, rfl⟩
    · exact absurd (hrun.symm.trans hf) (by decide)
    · have hi : i ≠ .srst := by
        rintro rfl
        exact hsrst (htxn.trans (congrArg _ (encode_of_decode hd).symm))
      obtain ⟨hfaulted, hrecord⟩ := he.record_eq hi
      exact ⟨hfaulted.trans hf, hrecord⟩

/-! ### One response to every word (R81, R95, R183) -/

/-- Every command is modelled, and ends in a next state (R183). -/
theorem exec_total (i : Instr) (s : State) : ∃ t, exec i s = .next t := by
  cases i with
  | stat sel =>
    cases hsel : statReg sel with
    | some r => exact ⟨_, by simp only [exec, execStat, hsel]; rfl⟩
    | none => exact ⟨_, by simp only [exec, execStat, hsel]; rfl⟩
  | _ => exact ⟨_, rfl⟩

theorem executeWord_total (w : CmdWord) (s : State) : ∃ t, executeWord w s = .next t := by
  cases hd : decode w with
  | ok i =>
    obtain ⟨t, ht⟩ := exec_total i s
    exact ⟨t, by simpa only [executeWord, hd] using ht⟩
  | error e => exact ⟨_, executeWord_of_decode_error hd⟩

theorem executeWord_params_and_drive (h : executeWord w s = .next t) :
    t.params = s.params ∧ t.drive = s.drive := by
  rcases executeWord_next h with ⟨-, rfl⟩ | ⟨-, c, info, cmd, rfl⟩ | ⟨i, -, he⟩
  · exact ⟨rfl, rfl⟩
  · exact ⟨rfl, rfl⟩
  · exact ⟨he.params_eq, he.drive_eq⟩

/-- An effect is answered OK, or END by a DEC or HEXRD that changes nothing else (R95). -/
theorem Effect.answers (he : Effect s i t) :
    ∃ st d, t.txn = .answered (responseWord st t.fcause d) ∧
      (st = .endOfData → (i = .dec ∨ i = .hexrd) ∧ t = s.respond .endOfData d) := by
  cases he with
  | decEnd => exact ⟨_, _, rfl, fun _ => ⟨.inl rfl, rfl⟩⟩
  | hexrdEnd => exact ⟨_, _, rfl, fun _ => ⟨.inr rfl, rfl⟩⟩
  | _ => exact ⟨.ok, _, rfl, nofun⟩

/-- Every word is answered, with the cause held after it; END only as above. -/
theorem executeWord_answers (h : executeWord w s = .next t) :
    ∃ st d, t.txn = .answered (responseWord st t.fcause d) ∧
      (st = .endOfData → (decode w = .ok .dec ∨ decode w = .ok .hexrd) ∧
        t = s.respond .endOfData d) := by
  rcases executeWord_next h with ⟨-, rfl⟩ | ⟨-, c, info, cmd, rfl⟩ | ⟨i, hd, he⟩
  · exact ⟨.faulted, 0, rfl, nofun⟩
  · exact ⟨.fault, 0, rfl, nofun⟩
  · obtain ⟨st, d, htxn, hend⟩ := he.answers
    refine ⟨st, d, htxn, fun hst => ?_⟩
    obtain ⟨rfl | rfl, ht⟩ := hend hst
    · exact ⟨.inl hd, ht⟩
    · exact ⟨.inr hd, ht⟩

theorem Status.code_le (st : Status) : st.code ≤ 3 := by
  cases st <;> decide

theorem Status.eq_endOfData_of_code {st : Status} (h : st.code = 1) : st = .endOfData := by
  cases st with
  | endOfData => rfl
  | ok | fault | faulted => exact absurd h (by decide)

/-- Settles O10: every word ends in a next state, and its answer is one of the four. -/
theorem everyWordYieldsOneResponse : Obligations.EveryWordYieldsOneResponse := by
  intro w s
  obtain ⟨t, ht⟩ := executeWord_total w s
  obtain ⟨st, d, htxn, hend⟩ := executeWord_answers ht
  obtain ⟨hparams, hdrive⟩ := executeWord_params_and_drive ht
  refine ⟨t, _, ht, htxn, ?status, rspCause_responseWord _ _ _, hparams, hdrive, fun hone => ?endOnly⟩
  case status => exact (rspStatus_responseWord st _ _).symm ▸ st.code_le
  case endOnly =>
    rw [rspStatus_responseWord] at hone
    obtain ⟨hword, rfl⟩ := hend (Status.eq_endOfData_of_code hone)
    obtain rfl := Status.eq_endOfData_of_code hone
    exact ⟨hword, rfl⟩

end Sys2Proof.Machine

/-! The handshake as a refinement of the one-transition model (R81, R269): execution neither looks at the
outstanding transaction nor at the host's drive, so three steps of the handshake are one transaction. -/

namespace Sys2Proof.Machine

variable {s t : State} {w : CmdWord}

/-! ### Execution does not look at the interface -/

namespace State

/-- The same block with another transaction outstanding and another drive. -/
def atInterface (txn : Transaction) (drive : List HostDrive) (s : State) : State :=
  { s with txn := txn, drive := drive }

/-- The same state with another drive. -/
def withDrive (drive : List HostDrive) (s : State) : State := { s with drive := drive }

theorem walk_congr (hp : t.params = s.params) (hn : t.node = s.node) (bits : List Bool) (pos : Nat)
    (cur : NodeIx) : t.walk bits pos cur = s.walk bits pos cur := by
  induction bits generalizing pos cur with
  | nil => rfl
  | cons b rest ih => simp only [walk, childNode_congr hp hn, nodeAt, hn, ih]

section

variable (s) (x : Transaction) (d : List HostDrive)

@[simp] theorem atInterface_decPos : (s.atInterface x d).decPos = s.decPos := rfl
@[simp] theorem atInterface_root : (s.atInterface x d).root = s.root := rfl
@[simp] theorem atInterface_bitStream : (s.atInterface x d).bitStream = s.bitStream := rfl
@[simp] theorem atInterface_findCode (except : Option Nat) (sym : Sym) :
    (s.atInterface x d).findCode except sym = s.findCode except sym := rfl
@[simp] theorem atInterface_findLeaf (except : Nat) (sym : Sym) :
    (s.atInterface x d).findLeaf except sym = s.findLeaf except sym := rfl
@[simp] theorem atInterface_codeOf (sym : Sym) : (s.atInterface x d).codeOf sym = s.codeOf sym := rfl
@[simp] theorem atInterface_walk (bits : List Bool) (pos : Nat) (cur : NodeIx) :
    (s.atInterface x d).walk bits pos cur = s.walk bits pos cur :=
  walk_congr (s := s) (t := s.atInterface x d) rfl rfl bits pos cur

end

/-- A change `f` of the state that FAULTED does not see carries over to the end of a command, as `g`, if it
carries over to a refusal and to the command's effect. -/
theorem unlessFaulted_map (f g : State → State) {effect effect' : State}
    (hfaulted : (f s).faulted = s.faulted) (hrefuse : (f s).refuse = g s.refuse)
    (heffect : effect' = g effect) (h : s.unlessFaulted effect = .next t) :
    (f s).unlessFaulted effect' = .next (g t) := by
  rcases unlessFaulted_next h with ⟨hf, rfl⟩ | ⟨hf, rfl⟩
  · rw [(f s).unlessFaulted_of_faulted _ (hfaulted.trans hf), hrefuse]
  · rw [(f s).unlessFaulted_of_running _ (hfaulted.trans hf), heffect]

theorem unlessFaulted_atInterface {x : Transaction} {d : List HostDrive} {effect effect' : State}
    (heffect : effect' = effect.withDrive d) (h : s.unlessFaulted effect = .next t) :
    (s.atInterface x d).unlessFaulted effect' = .next (t.withDrive d) :=
  unlessFaulted_map (atInterface x d) (withDrive d) rfl rfl heffect h

end State

/-- A command's end is the same at any interface, but for the drive, which it keeps. The proof moves the
change of the drive inside the command's checks, down to its ends. -/
theorem exec_atInterface {i : Instr} (x : Transaction) (d : List HostDrive) (h : exec i s = .next t) :
    exec i (s.atInterface x d) = .next (t.withDrive d) := by
  cases i with
  | srst =>
    cases h
    rfl
  | stat sel =>
    cases hsel : statReg sel with
    | some r =>
      simp only [exec, execStat, hsel, Host.Outcome.next.injEq] at h ⊢
      subst h
      cases r <;> rfl
    | none =>
      simp only [exec, execStat, hsel] at h ⊢
      exact State.unlessFaulted_atInterface rfl h
  | nop | bsclr | decrw | hexrw => exact State.unlessFaulted_atInterface rfl h
  | ldint | setroot | putbits | hexrd =>
    refine State.unlessFaulted_atInterface ?_ h
    simp only [apply_ite (State.withDrive d)]
    rfl
  | ldct cti len code sym =>
    refine State.unlessFaulted_atInterface ?_ h
    simp only [apply_ite (State.withDrive d), State.atInterface_findCode]
    cases s.findCode (some cti.toNat) sym <;> rfl
  | ldleaf ni sym =>
    refine State.unlessFaulted_atInterface ?_ h
    simp only [apply_ite (State.withDrive d), State.atInterface_findLeaf]
    cases s.findLeaf ni.toNat sym <;> rfl
  | enc sym =>
    refine State.unlessFaulted_atInterface ?_ h
    rw [State.atInterface_codeOf, apply_ite (State.withDrive d)]
    cases s.codeOf sym with
    | none => rfl
    | some c =>
      simp only [apply_ite (State.withDrive d)]
      rfl
  | dec =>
    refine State.unlessFaulted_atInterface ?_ h
    simp only [apply_ite (State.withDrive d), State.atInterface_walk, State.atInterface_bitStream,
      State.atInterface_decPos, State.atInterface_root]
    cases s.walk (s.bitStream.drop s.decPos.toNat) s.decPos.toNat s.root <;> rfl

theorem executeWord_atInterface (x : Transaction) (d : List HostDrive)
    (h : executeWord w s = .next t) :
    executeWord w (s.atInterface x d) = .next (t.withDrive d) := by
  cases hd : decode w with
  | ok i =>
    simp only [executeWord, hd] at h ⊢
    exact exec_atInterface x d h
  | error e =>
    rw [executeWord_of_decode_error hd] at h ⊢
    exact State.unlessFaulted_atInterface rfl h

/-! ### Three steps of the handshake (R81) -/

theorem core_run_succ (h : step s = .next t) (n : Nat) :
    Sys2Proof.core.run (n + 1) s = Sys2Proof.core.run n t := by
  have hstep : Sys2Proof.core.step s = .next t := h
  simp only [Host.Core.run, hstep]

theorem transferred_succ (h : step s = .next t) (n : Nat) :
    transferred (n + 1) s =
      (if s.driveNow.rspReady then s.rspOffered.toList else []) ++ transferred n t := by
  simp only [transferred, h]

/-- The three steps of `handshake` for one word: the word is accepted, executed, and its response taken. -/
theorem handshake_steps {u : State} {r : RspWord} (hidle : s.txn = .idle)
    (h : executeWord w s = .next u) (hu : u.txn = .answered r) (rest : List HostDrive) :
    let take : HostDrive := ⟨true, none, true⟩
    step (s.withDrive (⟨true, some w, false⟩ :: .quiet :: take :: rest)) =
      .next (s.atInterface (.accepted w) (.quiet :: take :: rest)) ∧
    step (s.atInterface (.accepted w) (.quiet :: take :: rest)) = .next (u.withDrive (take :: rest)) ∧
    step (u.withDrive (take :: rest)) = .next (u.atInterface .idle rest) :=
  ⟨step_of_offered rfl hidle rfl,
    (step_of_accepted rfl rfl).trans (executeWord_atInterface (s := s) (.accepted w) _ h),
    step_of_taken rfl hu rfl⟩

/-- The handshake of one word and then of others runs the word, transfers its response, and goes on from the
state the transaction leaves. -/
theorem handshake_cons {u : State} {r : RspWord} (hidle : s.txn = .idle)
    (h : executeWord w s = .next u) (hu : u.txn = .answered r) (n : Nat) (ws : List CmdWord) :
    Sys2Proof.core.run (n + 3) (s.withDrive (handshake (w :: ws))) =
      Sys2Proof.core.run n (u.atInterface .idle (handshake ws)) ∧
    transferred (n + 3) (s.withDrive (handshake (w :: ws))) =
      r :: transferred n (u.atInterface .idle (handshake ws)) := by
  obtain ⟨haccept, hexecute, htake⟩ := handshake_steps hidle h hu (handshake ws)
  have hoffered : (u.withDrive (⟨true, none, true⟩ :: handshake ws)).rspOffered = some r := by
    simp [State.rspOffered, State.withDrive, State.driveNow, hu]
  constructor
  · exact (core_run_succ haccept _).trans ((core_run_succ hexecute _).trans (core_run_succ htake n))
  · calc transferred (n + 3) (s.withDrive (handshake (w :: ws)))
      _ = transferred (n + 1) (u.withDrive (⟨true, none, true⟩ :: handshake ws)) :=
        (transferred_succ haccept _).trans (transferred_succ hexecute _)
      _ = r :: transferred n (u.atInterface .idle (handshake ws)) := by
        rw [transferred_succ htake, hoffered]
        rfl

/-- Settles O9: by induction on the words, three steps of the handshake for each. -/
theorem handshakeRefinesTheTransactionModel : Obligations.HandshakeRefinesTheTransactionModel := by
  intro ws
  induction ws with
  | nil =>
    intro s t rs hidle hdrive hrun
    cases hrun
    refine ⟨?_, rfl⟩
    rw [← hidle]
    show Host.Outcome.next { s with drive := [] } = .next s
    rw [← hdrive]
  | cons w ws ih =>
    intro s t rs hidle hdrive hrun
    obtain ⟨u, r, rs', hu, htxn, hrest, rfl⟩ := runWords_cons_eq_some hrun
    obtain ⟨-, hkept⟩ := executeWord_params_and_drive hu
    obtain ⟨hfinal, hresponses⟩ :=
      ih { u with txn := .idle } t rs' rfl (hkept.trans hdrive) hrest
    obtain ⟨hsteps, htransfers⟩ := handshake_cons hidle hu htxn (3 * ws.length) ws
    exact ⟨hsteps.trans hfinal, htransfers.trans (congrArg (r :: ·) hresponses)⟩

end Sys2Proof.Machine

/-! Table loading (spec/40_tables.md): LDCT, LDLEAF and LDINT with their effects (R110 to R112) and their faults
in check order (R222 to R225, R234). -/

namespace Sys2Proof.Machine

variable {s : State} {i : Instr}

/-- A fault entry for the command is what the statements about faults ask for. -/
theorem commandFaults_of_raise {c : FaultCause} {info : Detail}
    (h : exec i s = .next (s.raise c info (encode i))) : CommandFaults i s c.code info := h

/-! ### LDCT (R110) -/

theorem exec_ldct_of_free {cti : BitVec 8} {len : BitVec 5} {code : CodeBits} {sym : Sym}
    (hf : s.faulted = false) (hcti : cti.toNat < s.params.nSym)
    (hlen : ¬ BadCodeLength s.params len code) (hsym : IsSymbol sym)
    (hfree : s.findCode (some cti.toNat) sym = none) :
    exec (.ldct cti len code sym) s =
      .next ((s.writeCt cti.toNat (.valid sym len code)).respond .ok 0) := by
  simp only [exec, execLdct, s.unlessFaulted_of_running _ hf, if_neg hcti.not_ge, if_neg hlen,
    if_neg (not_not.2 hsym), hfree]

/-- Settles O21: an LDCT that passes its four checks writes its entry. -/
theorem ldctStoresTheEntry : Obligations.LdctStoresTheEntry := by
  intro s cti len code sym hinv hf hcti hpos hmax hcode hsym hother
  have hlen : ¬ BadCodeLength s.params len code := by
    rintro (h | h | h) <;> omega
  have hfree : s.findCode (some cti.toNat) sym = none :=
    s.findCode_none.2 fun j hj hne => hother j hj (by simpa using hne)
  refine ⟨_, exec_ldct_of_free hf hcti hlen hsym hfree, ?_, fun j => ?_⟩
  · exact State.respond_ok_zero (s := s.writeCt _ _) (hinv.positions.cause_iff.2 hf)
  · exact s.ctAt_writeCt _ _ _ (hinv.storage.1.symm ▸ hcti)

/-- Settles O22: each check of LDCT, the earlier ones passed. -/
theorem ldctFaultsInItsCheckOrder : Obligations.LdctFaultsInItsCheckOrder := by
  refine fun s cti len code sym hinv hf => ⟨fun hcti => ?index, fun hcti =>
    ⟨fun hbad => ?length, fun hne hmax hcode => ?legalLength⟩⟩
  case index =>
    refine commandFaults_of_raise (c := .badIndex) ?_
    have hinfo : cti.setWidth 48 = indexDetail 0 (cti.setWidth 10) := by
      rw [indexDetail_zero]
      exact BitVec.eq_of_toNat_eq (by simp)
    simp only [exec, execLdct, s.unlessFaulted_of_running _ hf, if_pos hcti, hinfo]
  case length =>
    refine commandFaults_of_raise (c := .badLength) ?_
    simp only [exec, execLdct, s.unlessFaulted_of_running _ hf, if_neg hcti.not_ge,
      if_pos (show BadCodeLength s.params len code from hbad)]
  case legalLength =>
    have hlen : ¬ BadCodeLength s.params len code := by
      rintro (h | h | h) <;> omega
    refine ⟨fun hsym => commandFaults_of_raise (c := .badSymbol) ?_,
      fun hsym j hj hne hheld => commandFaults_of_raise (c := .dupSymbol) ?_⟩
    · simp only [exec, execLdct, s.unlessFaulted_of_running _ hf, if_neg hcti.not_ge, if_neg hlen,
        if_pos (show ¬ IsSymbol sym from hsym.not_ge)]
    · have hfind : s.findCode (some cti.toNat) sym = some j :=
        s.findCode_eq hinv.codes_unique hj (by simpa using hne) hheld
      simp only [exec, execLdct, s.unlessFaulted_of_running _ hf, if_neg hcti.not_ge, if_neg hlen,
        if_neg (not_not.2 (show IsSymbol sym from hsym)), hfind, dupDetail]

/-! ### LDLEAF (R111) -/

theorem exec_ldleaf_of_free {ni : NodeIx} {sym : Sym} (hf : s.faulted = false)
    (hni : ni.toNat < s.params.nNode) (hsym : IsSymbol sym)
    (hfree : s.findLeaf ni.toNat sym = none) :
    exec (.ldleaf ni sym) s = .next ((s.writeNode ni.toNat (.leaf sym)).respond .ok 0) := by
  simp only [exec, execLdleaf, s.unlessFaulted_of_running _ hf, if_neg hni.not_ge,
    if_neg (not_not.2 hsym), hfree]

/-- Settles O23: an LDLEAF that passes its three checks writes its leaf. -/
theorem ldleafStoresTheLeaf : Obligations.LdleafStoresTheLeaf := by
  intro s ni sym hinv hf hni hsym hother
  refine ⟨_, exec_ldleaf_of_free hf hni hsym (s.findLeaf_none.2 hother), ?_, fun j => ?_⟩
  · exact State.respond_ok_zero (s := s.writeNode _ _) (hinv.positions.cause_iff.2 hf)
  · exact s.nodeAt_writeNode _ _ _ (hinv.storage.2.1.symm ▸ hni)

/-- Settles O24: each check of LDLEAF, the earlier ones passed. -/
theorem ldleafFaultsInItsCheckOrder : Obligations.LdleafFaultsInItsCheckOrder := by
  refine fun s ni sym hinv hf => ⟨fun hni => ?index, fun hni =>
    ⟨fun hsym => ?symbol, fun hsym j hj hne hheld => ?duplicate⟩⟩
  case index =>
    refine commandFaults_of_raise (c := .badIndex) ?_
    simp only [exec, execLdleaf, s.unlessFaulted_of_running _ hf, if_pos hni, indexDetail_zero]
  case symbol =>
    refine commandFaults_of_raise (c := .badSymbol) ?_
    simp only [exec, execLdleaf, s.unlessFaulted_of_running _ hf, if_neg hni.not_ge,
      if_pos (show ¬ IsSymbol sym from hsym.not_ge)]
  case duplicate =>
    refine commandFaults_of_raise (c := .dupSymbol) ?_
    have hfind : s.findLeaf ni.toNat sym = some j :=
      s.findLeaf_eq hinv.leaves_unique hj hne hheld
    simp only [exec, execLdleaf, s.unlessFaulted_of_running _ hf, if_neg hni.not_ge,
      if_neg (not_not.2 (show IsSymbol sym from hsym)), hfind, dupDetail]

/-! ### LDINT (R112) -/

theorem not_badChild_iff {p : Params} {ix : NodeIx} :
    ¬ BadChild p ix ↔ ix = nullIx ∨ ix.toNat < p.nNode := by
  rw [not_and_or, not_not, not_le]

theorem exec_ldint_of_legal {ni left right : NodeIx} (hf : s.faulted = false)
    (hni : ni.toNat < s.params.nNode) (hleft : ¬ BadChild s.params left)
    (hright : ¬ BadChild s.params right) :
    exec (.ldint ni left right) s =
      .next ((s.writeNode ni.toNat (.internal left right)).respond .ok 0) := by
  simp only [exec, execLdint, s.unlessFaulted_of_running _ hf, if_neg hni.not_ge, if_neg hleft,
    if_neg hright]

/-- Settles O25: an LDINT that passes its three checks writes its node. -/
theorem ldintStoresTheInternalNode : Obligations.LdintStoresTheInternalNode := by
  intro s ni left right hinv hf hni hleft hright
  refine ⟨_, exec_ldint_of_legal hf hni (not_badChild_iff.2 hleft) (not_badChild_iff.2 hright),
    ?_, fun j => ?_⟩
  · exact State.respond_ok_zero (s := s.writeNode _ _) (hinv.positions.cause_iff.2 hf)
  · exact s.nodeAt_writeNode _ _ _ (hinv.storage.2.1.symm ▸ hni)

/-- Settles O26: each check of LDINT, the earlier ones passed. -/
theorem ldintFaultsInItsCheckOrder : Obligations.LdintFaultsInItsCheckOrder := by
  refine fun s ni left right hf => ⟨fun hni => ?index, fun hni =>
    ⟨fun hleft => ?left, fun hleft hne hright => ?right⟩⟩
  all_goals refine commandFaults_of_raise (c := .badIndex) ?_
  case index =>
    simp only [exec, execLdint, s.unlessFaulted_of_running _ hf, if_pos hni, indexDetail]
    rfl
  case left =>
    simp only [exec, execLdint, s.unlessFaulted_of_running _ hf, if_neg hni.not_ge,
      if_pos (show BadChild s.params left from hleft), indexDetail]
    rfl
  case right =>
    have hright : BadChild s.params right := ⟨hne, hright⟩
    simp only [exec, execLdint, s.unlessFaulted_of_running _ hf, if_neg hni.not_ge,
      if_neg (not_badChild_iff.2 hleft), if_pos hright, indexDetail]
    rfl

end Sys2Proof.Machine

/-! BitEncoder (spec/41_encoder.md): ENC (R140) and PUTBITS (R142) with their faults in check order, and PUTHEX,
the re-entry of a HexString (R100). -/

namespace Sys2Proof.Machine

variable {s : State}

theorem State.Inv.fcause_eq_zero (hinv : s.Inv) (hf : s.faulted = false) : s.fcause = 0 :=
  hinv.positions.cause_iff.2 hf

/-- An OK response of a block with no cause, whole (R95). -/
theorem State.respond_ok (h : s.fcause = 0) (d : RspData) :
    s.respond .ok d = { s with txn := .answered (0x0#4 ++ 0x0#4 ++ d) } := by
  unfold State.respond
  rw [h]
  rfl

/-- BS_LEN counts the appended bits without a carry out of its 24 bits, if they fit the buffer (R11). -/
theorem State.Inv.toNat_bsLen_appendBits (hinv : s.Inv) {bits : List Bool}
    (hfit : s.bsLen.toNat + bits.length ≤ s.params.bsCap) :
    (s.appendBits bits).bsLen.toNat = s.bsLen.toNat + bits.length := by
  have ⟨_, _, _, _, hcap⟩ := hinv.params_legal
  rw [State.appendBits_bsLen, BitVec.toNat_ofNat, Nat.mod_eq_of_lt (by omega)]

/-- In the canonical form the appended bits stand at the end of the buffer. -/
theorem State.appendBits_eq (hw : s.StorageWf) (bits : List Bool) :
    s.appendBits bits = { s with bs := s.bs ++ bits, bsLen := (s.appendBits bits).bsLen } := by
  rw [State.appendBits, s.bitStream_eq hw]

/-! ### ENC (R140) -/

theorem exec_enc_of_fits {sym : Sym} {len : BitVec 5} {code : CodeBits} (hf : s.faulted = false)
    (hsym : IsSymbol sym) (hcode : s.codeOf sym = some (len, code))
    (hfit : s.bsLen.toNat + len.toNat ≤ s.params.bsCap) :
    exec (.enc sym) s = .next ((s.appendBits (bitString len.toNat code)).respond .ok
      (0#27 ++ len ++ (s.appendBits (bitString len.toNat code)).bsLen)) := by
  simp only [exec, execEnc, s.unlessFaulted_of_running _ hf, if_neg (not_not.2 hsym), hcode,
    if_neg hfit.not_gt]

/-- A valid entry of the table holds a symbol and a code of legal length. -/
theorem State.Inv.ctAt_stored (hinv : s.Inv) {i : Nat} (hi : i < s.params.nSym) :
    (s.ctAt i).Stored s.params := by
  have hlt : i < s.ct.length := hinv.storage.1.symm ▸ hi
  have hat : s.ctAt i = s.ct[i] := List.getD_eq_getElem _ _ hlt
  exact hat ▸ hinv.codes_stored _ (List.getElem_mem hlt)

/-- The response to bits that were appended, whole: the two fields written and nothing else. -/
theorem State.Inv.respond_appendBits (hinv : s.Inv) (hf : s.faulted = false) (bits : List Bool)
    (d : RspData) :
    (s.appendBits bits).respond .ok d =
      { s with bs := s.bs ++ bits, bsLen := (s.appendBits bits).bsLen,
               txn := .answered (0x0#4 ++ 0x0#4 ++ d) } := by
  rw [State.respond_ok (s := s.appendBits bits) (hinv.fcause_eq_zero hf), s.appendBits_eq hinv.storage]

/-- Settles O28: ENC appends the bit string of the one code it finds. -/
theorem encAppendsTheCode : Obligations.EncAppendsTheCode := by
  intro s i sym len code hinv hf hi hat hfit
  have hstored := hinv.ctAt_stored hi
  rw [hat] at hstored
  obtain ⟨hsym, -⟩ := hstored
  have hcode : s.codeOf sym = some (len, code) := s.codeOf_eq hinv.codes_unique hi hat
  have hlen := hinv.toNat_bsLen_appendBits (bits := bitString len.toNat code) (by simpa using hfit)
  rw [bitString_length] at hlen
  refine ⟨bitString len.toNat code, _, bitString_length _ _, fun k hk => bitString_getElem? _ _ k hk,
    hlen, ?_⟩
  rw [exec_enc_of_fits hf hsym hcode hfit, hinv.respond_appendBits hf]

/-- Settles O29: each check of ENC, the earlier ones passed. -/
theorem encFaultsInItsCheckOrder : Obligations.EncFaultsInItsCheckOrder := by
  refine fun s sym hinv hf => ⟨fun hsym => ?symbol, fun hsym =>
    ⟨fun hnone => ?noCode, fun i hi len code hat hover => ?overflow⟩⟩
  case symbol =>
    refine commandFaults_of_raise (c := .badSymbol) ?_
    simp only [exec, execEnc, s.unlessFaulted_of_running _ hf,
      if_pos (show ¬ IsSymbol sym from hsym.not_ge)]
  case noCode =>
    refine commandFaults_of_raise (c := .encNoCode) ?_
    simp only [exec, execEnc, s.unlessFaulted_of_running _ hf,
      if_neg (not_not.2 (show IsSymbol sym from hsym)), s.codeOf_none.2 hnone]
  case overflow =>
    refine commandFaults_of_raise (c := .bufOverflow) ?_
    simp only [exec, execEnc, s.unlessFaulted_of_running _ hf,
      if_neg (not_not.2 (show IsSymbol sym from hsym)), s.codeOf_eq hinv.codes_unique hi hat,
      if_pos hover, overflowDetail]

/-! ### PUTBITS (R142) -/

theorem exec_putbits_of_fits {cnt : BitVec 6} {data : BitVec 32} (hf : s.faulted = false)
    (hcnt : ¬ BadBitCount cnt data) (hfit : s.bsLen.toNat + cnt.toNat ≤ s.params.bsCap) :
    exec (.putbits cnt data) s = .next ((s.appendBits (bitString cnt.toNat data)).respond .ok
      (0#26 ++ cnt ++ (s.appendBits (bitString cnt.toNat data)).bsLen)) := by
  simp only [exec, execPutbits, s.unlessFaulted_of_running _ hf, if_neg hcnt, if_neg hfit.not_gt]

/-- Settles O30: PUTBITS appends the bit string it carries. -/
theorem putbitsAppendsTheBits : Obligations.PutbitsAppendsTheBits := by
  intro s cnt data hinv hf hpos hmax hdata hfit
  have hcnt : ¬ BadBitCount cnt data := by
    rintro (h | h | h) <;> omega
  have hlen := hinv.toNat_bsLen_appendBits (bits := bitString cnt.toNat data) (by simpa using hfit)
  rw [bitString_length] at hlen
  refine ⟨bitString cnt.toNat data, _, bitString_length _ _, fun k hk => bitString_getElem? _ _ k hk,
    hlen, ?_⟩
  rw [exec_putbits_of_fits hf hcnt hfit, hinv.respond_appendBits hf]

/-- Settles O31: each check of PUTBITS, the earlier one passed. -/
theorem putbitsFaultsInItsCheckOrder : Obligations.PutbitsFaultsInItsCheckOrder := by
  refine fun s cnt data hf => ⟨fun hbad => ?length, fun hne hmax hdata hover => ?overflow⟩
  case length =>
    refine commandFaults_of_raise (c := .badLength) ?_
    simp only [exec, execPutbits, s.unlessFaulted_of_running _ hf,
      if_pos (show BadBitCount cnt data from hbad)]
  case overflow =>
    refine commandFaults_of_raise (c := .bufOverflow) ?_
    have hcnt : ¬ BadBitCount cnt data := by
      rintro (h | h | h) <;> omega
    simp only [exec, execPutbits, s.unlessFaulted_of_running _ hf, if_neg hcnt, if_pos hover,
      overflowDetail]

/-! ### PUTHEX (R100, R163) -/

/-- The four bits of a digit, most significant first (R100). -/
def digitBits (d : BitVec 4) : List Bool := [d.getLsbD 3, d.getLsbD 2, d.getLsbD 1, d.getLsbD 0]

theorem bitString_four_setWidth (d : BitVec 4) : bitString 4 (d.setWidth 32) = digitBits d := by
  revert d
  decide

/-- The PUTBITS of one digit appends the digit's four bits. -/
theorem transact_puthex_digit (hinv : s.Inv) (hf : s.faulted = false) (d : BitVec 4)
    (hfit : s.bsLen.toNat + 4 ≤ s.params.bsCap) :
    ∃ u r, transact s (encode (.putbits 4 (d.setWidth 32))) = some (u, r) ∧ u.Inv ∧
      u.faulted = false ∧ u.params = s.params ∧ u.bsLen.toNat = s.bsLen.toNat + 4 ∧
      u.bitStream = s.bitStream ++ digitBits d := by
  have ⟨_, _, _, _, hcap⟩ := hinv.params_legal
  have hcnt : ¬ BadBitCount 4 (d.setWidth 32) := by
    revert d
    decide
  have hexec := exec_putbits_of_fits hf hcnt hfit
  have hlen := hinv.toNat_bsLen_appendBits (bits := digitBits d) hfit
  have hstream := s.bitStream_appendBits (digitBits d) hinv.storage
    (show s.bsLen.toNat + 4 < 2 ^ 24 by omega)
  have hbits : bitString (4 : BitVec 6).toNat (d.setWidth 32) = digitBits d := bitString_four_setWidth d
  rw [hbits] at hexec
  exact ⟨_, _, transact_encode hexec rfl, (hinv.appendBits (bits := digitBits d) hfit).atInterface _ _,
    hf, rfl, hlen, hstream⟩

/-- Settles O51: by induction on the digits, four bits for each. -/
theorem puthexAppendsFourBitsPerDigit : Obligations.PuthexAppendsFourBitsPerDigit := by
  intro s digits hinv hf hfit
  induction digits generalizing s with
  | nil => exact ⟨s, [], ⟨rfl, hf⟩, (List.append_nil _).symm⟩
  | cons d digits ih =>
    rw [List.length_cons] at hfit
    obtain ⟨u, r, hfirst, hu, huf, hparams, hlen, hbits⟩ :=
      transact_puthex_digit hinv hf d (by omega)
    obtain ⟨t, rs, ⟨hrest, htf⟩, ht⟩ := ih u hu huf (by rw [hparams]; omega)
    refine ⟨t, r :: rs, ⟨runWords_cons hfirst hrest, htf⟩, ?_⟩
    rw [ht, hbits, List.append_assoc]
    rfl

end Sys2Proof.Machine

/-! HexPacker (spec/42_hexpacker.md): HEXRD with its digit (R160), its END (R231), and the HexString law with its
loss (R163). -/

namespace Sys2Proof.Machine

variable {s t : State}

/-! ### The digit of a group (R160) -/

theorem getD_append_replicate_false (bits : List Bool) (n k : Nat) :
    (bits ++ List.replicate n false).getD k false = bits.getD k false := by
  rcases Nat.lt_or_ge k bits.length with hk | hk
  · exact List.getD_append _ _ _ _ hk
  · rw [List.getD_append_right _ _ _ _ hk, List.getD_eq_default _ _ hk,
      List.getD_eq_getElem?_getD, List.getElem?_getD_replicate_default_eq]

/-- Bit `k` of a group, counted from its lowest position, is bit `3 - k` of its value; 0 is padded on the
right. -/
theorem getLsbD_groupValue {bits : List Bool} (hlen : bits.length ≤ 4) {k : Nat} (hk : k < 4) :
    (groupValue bits).getLsbD (3 - k) = bits.getD k false := by
  have hpad : (bits ++ List.replicate (4 - bits.length) false).length = 4 := by
    rw [List.length_append, List.length_replicate]
    omega
  rw [← getD_append_replicate_false bits (4 - bits.length), List.getD_eq_getElem _ _ (by omega),
    ← testBit_bitsValue _ k (by omega), hpad, groupValue, BitVec.getLsbD_ofNat]
  simp
  omega

theorem State.length_group_le (s : State) (g : Nat) : (s.group g).length ≤ 4 :=
  List.length_take_le _ _

theorem State.getLsbD_groupValue_group (s : State) (g : Nat) {k : Nat} (hk : k < 4) :
    (groupValue (s.group g)).getLsbD (3 - k) = s.bitStream.getD (4 * g + k) false := by
  rw [getLsbD_groupValue (s.length_group_le g) hk, State.group, List.getD_eq_getElem?_getD,
    List.getElem?_take_of_lt hk, List.getElem?_drop, List.getD_eq_getElem?_getD]

/-- A 4-bit value is known by its bits, read from the most significant. -/
theorem eq_of_getLsbD_three_sub {v v' : BitVec 4}
    (h : ∀ k < 4, v.getLsbD (3 - k) = v'.getLsbD (3 - k)) : v = v' := by
  apply BitVec.eq_of_getLsbD_eq
  intro i hi
  have hbit := h (3 - i) (by omega)
  rwa [show 3 - (3 - i) = i by omega] at hbit

/-- The four bits of a value, joined, are the value. -/
theorem getLsbD_ofBool_append (b : Nat → Bool) {k : Nat} (hk : k < 4) :
    (BitVec.ofBool (b 0) ++ BitVec.ofBool (b 1) ++ BitVec.ofBool (b 2) ++ BitVec.ofBool (b 3) :
      BitVec 4).getLsbD (3 - k) = b k := by
  have hall : ∀ b0 b1 b2 b3 : Bool, ∀ k < 4,
      (BitVec.ofBool b0 ++ BitVec.ofBool b1 ++ BitVec.ofBool b2 ++ BitVec.ofBool b3 :
        BitVec 4).getLsbD (3 - k) = [b0, b1, b2, b3].getD k false := by decide
  rw [hall _ _ _ _ k hk]
  interval_cases k <;> rfl

theorem State.groupPad_group (hw : s.StorageWf) (g : Nat) :
    groupPad (s.group g) = decide (s.bsLen.toNat < 4 * g + 4) := by
  have ⟨_, _, hlen⟩ := hw
  rw [groupPad, State.group, List.length_take, List.length_drop, s.bitStream_eq hw, hlen]
  exact decide_eq_decide.2 (by omega)

/-! ### HEXRD -/

theorem exec_hexrd_of_end (hf : s.faulted = false) (hend : s.bsLen.toNat ≤ 4 * s.hxIdx.toNat) :
    exec .hexrd s = .next (s.respond .endOfData (atPosition s.hxIdx 0)) := by
  simp only [exec, execHexrd, s.unlessFaulted_of_running _ hf, if_pos hend]

theorem exec_hexrd_of_more (hf : s.faulted = false) (hmore : 4 * s.hxIdx.toNat < s.bsLen.toNat) :
    exec .hexrd s = .next (({ s with hxIdx := s.hxIdx + 1 } : State).respond .ok
      (digitData (s.hxIdx + 1) (s.group s.hxIdx.toNat))) := by
  simp only [exec, execHexrd, s.unlessFaulted_of_running _ hf, if_neg hmore.not_ge]

/-- An END response of a block with no cause, whole (R95). -/
theorem State.respond_endOfData (h : s.fcause = 0) (d : RspData) :
    s.respond .endOfData d = { s with txn := .answered (0x1#4 ++ 0x0#4 ++ d) } := by
  unfold State.respond
  rw [h]
  rfl

/-- Settles O35: HEXRD with a bit left delivers the value of its group. -/
theorem hexrdDeliversTheNextDigit : Obligations.HexrdDeliversTheNextDigit := by
  intro s hinv hf hmore bit v pad
  refine ⟨s.hxIdx + 1, toNat_hxIdx_succ hmore, ?_⟩
  have hv : groupValue (s.group s.hxIdx.toNat) = v := by
    refine eq_of_getLsbD_three_sub fun k hk => ?_
    rw [s.getLsbD_groupValue_group _ hk, s.bitStream_eq hinv.storage]
    exact (getLsbD_ofBool_append (fun k => s.bs.getD (4 * s.hxIdx.toNat + k) false) hk).symm
  have hpad : BitVec.ofBool (groupPad (s.group s.hxIdx.toNat)) = pad :=
    congrArg _ (State.groupPad_group hinv.storage _)
  rw [exec_hexrd_of_more hf hmore,
    State.respond_ok (s := { s with hxIdx := s.hxIdx + 1 }) (hinv.fcause_eq_zero hf), digitData, hv,
    hpad]
  rfl

/-- Settles O36: HEXRD with no bit left answers END. -/
theorem hexrdAnswersEndWhenNoBitIsLeft : Obligations.HexrdAnswersEndWhenNoBitIsLeft := by
  intro s hinv hf hend
  rw [exec_hexrd_of_end hf hend, State.respond_endOfData (hinv.fcause_eq_zero hf)]
  rfl

/-! ### Reading to END (R163) -/

/-- The response to the HEXRD that delivers group `g`. -/
def State.digitRsp (s : State) (g : Nat) : RspWord :=
  responseWord .ok s.fcause (digitData (BitVec.ofNat 24 (g + 1)) (s.group g))

/-- The response to the HEXRD after the last group of `n`. -/
def State.hexEndRsp (s : State) (n : Nat) : RspWord :=
  responseWord .endOfData s.fcause (atPosition (BitVec.ofNat 24 n) 0)

/-- The number of groups that hold a bit of a stream of `len` bits (R163). -/
def groupCount (len : Nat) : Nat := (len + 3) / 4

/-- The block after `n` groups have been read, its response taken. -/
def State.afterGroups (n : Nat) (s : State) : State :=
  { s with hxIdx := BitVec.ofNat 24 n, txn := .idle }

theorem transact_hexrd_of_more (hf : s.faulted = false) (hmore : 4 * s.hxIdx.toNat < s.bsLen.toNat) :
    transact s (encode .hexrd) =
      some (s.afterGroups (s.hxIdx.toNat + 1), s.digitRsp s.hxIdx.toNat) := by
  have hidx : s.hxIdx + 1 = BitVec.ofNat 24 (s.hxIdx.toNat + 1) := by
    rw [← toNat_hxIdx_succ hmore, BitVec.ofNat_toNat, BitVec.setWidth_eq]
  rw [transact_encode (exec_hexrd_of_more hf hmore) rfl, hidx]
  rfl

theorem transact_hexrd_of_end (hf : s.faulted = false) (hend : s.bsLen.toNat ≤ 4 * s.hxIdx.toNat) :
    transact s (encode .hexrd) = some (s.afterGroups s.hxIdx.toNat, s.hexEndRsp s.hxIdx.toNat) := by
  rw [transact_encode (exec_hexrd_of_end hf hend) rfl, State.afterGroups, State.hexEndRsp,
    BitVec.ofNat_toNat, BitVec.setWidth_eq]
  rfl

/-- From group `g` of `g + k`, `k + 1` HEXRDs give the `k` digits that are left and then END. -/
theorem runWords_hexrd {g k : Nat} (hf : s.faulted = false) (hg : s.hxIdx.toNat = g)
    (hcount : g + k = groupCount s.bsLen.toNat) :
    runWords s (List.replicate (k + 1) (encode .hexrd)) =
      some (s.afterGroups (g + k), (List.range' g k).map s.digitRsp ++ [s.hexEndRsp (g + k)]) := by
  unfold groupCount at hcount
  induction k generalizing s g with
  | zero =>
    have hend := transact_hexrd_of_end hf (by omega)
    rw [hg] at hend
    exact runWords_cons hend rfl
  | succ k ih =>
    have hlt := s.bsLen.isLt
    have hmore := transact_hexrd_of_more hf (by omega)
    rw [hg] at hmore
    have hnext : (s.afterGroups (g + 1)).hxIdx.toNat = g + 1 :=
      Nat.mod_eq_of_lt (by omega)
    have hrest := ih (s := s.afterGroups (g + 1)) hf hnext (by
      show g + 1 + k = (s.bsLen.toNat + 3) / 4
      omega)
    rw [show g + (k + 1) = g + 1 + k by omega]
    exact runWords_cons hmore hrest

/-- All of a stream, read from its first group. -/
theorem runWords_hexrd_all (hf : s.faulted = false) (hstart : s.hxIdx = 0) {n : Nat}
    (hn : n = groupCount s.bsLen.toNat) :
    runWords s (List.replicate (n + 1) (encode .hexrd)) =
      some (s.afterGroups n, (List.range n).map s.digitRsp ++ [s.hexEndRsp n]) := by
  have hrun := runWords_hexrd (g := 0) (k := n) hf (by rw [hstart]; rfl) (by rw [Nat.zero_add, hn])
  rwa [Nat.zero_add, ← List.range_eq_range'] at hrun

@[simp] theorem rspStatus_digitRsp (g : Nat) : rspStatus (s.digitRsp g) = 0 :=
  rspStatus_responseWord _ _ _

@[simp] theorem rspStatus_hexEndRsp (n : Nat) : rspStatus (s.hexEndRsp n) = 1 :=
  rspStatus_responseWord _ _ _

/-! The value of a digit is at [11:8] and its code at [7:0] (R97). -/

theorem extractLsb_value_digitRsp (g : Nat) :
    (s.digitRsp g).extractLsb 11 8 = groupValue (s.group g) := by
  simp only [State.digitRsp, responseWord, digitData, atPosition, BitVec.extractLsb]
  simp (disch := decide) only [BitVec.extractLsb'_append_eq_of_add_le,
    BitVec.extractLsb'_append_eq_of_le]
  exact BitVec.extractLsb'_eq_self

theorem extractLsb_code_digitRsp (g : Nat) :
    (s.digitRsp g).extractLsb 7 0 = hexDigit (groupValue (s.group g)) := by
  simp only [State.digitRsp, responseWord, digitData, atPosition, BitVec.extractLsb]
  simp (disch := decide) only [BitVec.extractLsb'_append_eq_of_add_le]
  exact BitVec.extractLsb'_eq_self

theorem extractLsb_value_and_code_digitRsp (g : Nat) :
    (s.digitRsp g).extractLsb 11 0 =
      groupValue (s.group g) ++ hexDigit (groupValue (s.group g)) := by
  rw [← extractLsb_code_digitRsp, ← extractLsb_value_digitRsp]
  exact (fields_join (s.digitRsp g) 0 8 4 8 rfl).symm

/-- The digits of all groups are the HexString of any stream that agrees with the BitStream up to padding. -/
theorem isHexString_digits {stream : List Bool}
    (hget : ∀ p, stream.getD p false = s.bitStream.getD p false) {n : Nat}
    (hn : n = groupCount stream.length) : IsHexString stream ((List.range n).map s.digitRsp) := by
  refine ⟨by rw [List.length_map, List.length_range, hn, groupCount], fun g hg => ?_⟩
  rw [List.length_map, List.length_range] at hg
  refine ⟨groupValue (s.group g), s.digitRsp g, by simp [hg], rspStatus_digitRsp g, fun k hk => ?_,
    extractLsb_value_digitRsp g, extractLsb_code_digitRsp g⟩
  rw [hget, s.getLsbD_groupValue_group g hk]

/-- Settles O38: the digits are those of the groups in order, and END follows the last. -/
theorem readingTheHexStringYieldsAllDigitsThenEnd :
    Obligations.ReadingTheHexStringYieldsAllDigitsThenEnd := by
  intro s hinv hf hstart hidle n
  have ⟨_, _, hlen⟩ := hinv.storage
  have hn : n = groupCount s.bsLen.toNat := by
    rw [← hlen, ← s.bitStream_eq hinv.storage]
    rfl
  have hsmall : n < 2 ^ 24 := by
    have := s.bsLen.isLt
    unfold groupCount at hn
    omega
  obtain ⟨hcount, hdigits⟩ := isHexString_digits (s := s) (fun _ => rfl) (n := n) rfl
  refine ⟨s.afterGroups n, (List.range n).map s.digitRsp, ?run, ?frame, Nat.mod_eq_of_lt hsmall, hcount,
    fun g hg => ?digit⟩
  case run =>
    rw [runWords_hexrd_all hf hstart hn, State.hexEndRsp, hinv.fcause_eq_zero hf]
    rfl
  case frame =>
    rw [State.afterGroups, ← hidle]
  case digit =>
    obtain ⟨v, r, hr, hstatus, hbits, hvalue, hcode⟩ := hdigits g (hcount.symm ▸ hg)
    exact ⟨v, hbits, r, hr, hstatus, hvalue, hcode⟩

theorem State.groupValue_group_congr {g : Nat}
    (h : ∀ p, s.bitStream.getD p false = t.bitStream.getD p false) :
    groupValue (s.group g) = groupValue (t.group g) :=
  eq_of_getLsbD_three_sub fun _ hk => by
    rw [s.getLsbD_groupValue_group g hk, t.getLsbD_groupValue_group g hk, h]

/-- Settles O39: the two streams have as many groups, and each group has the same four bits in both. -/
theorem paddingIsLostInTheHexString : Obligations.PaddingIsLostInTheHexString := by
  intro s t hs ht hsf htf hs0 ht0 hpad reads
  have ⟨_, _, hslen⟩ := hs.storage
  have ⟨_, _, htlen⟩ := ht.storage
  rw [← s.bitStream_eq hs.storage] at hslen
  rw [← t.bitStream_eq ht.storage] at htlen
  have hget : ∀ p, s.bitStream.getD p false = t.bitStream.getD p false := by
    intro p
    rw [hpad, getD_append_replicate_false]
  have hn : (s.bitStream.length + 3) / 4 = groupCount s.bsLen.toNat := by rw [hslen]; rfl
  have hn' : (s.bitStream.length + 3) / 4 = groupCount t.bsLen.toNat := by
    rw [← htlen, hpad, List.length_append, List.length_replicate, groupCount]
    omega
  refine ⟨_, _, _, _, _, _, runWords_hexrd_all hsf hs0 hn, runWords_hexrd_all htf ht0 hn',
    isHexString_digits (fun _ => rfl) rfl, isHexString_digits hget rfl, ?_, rspStatus_hexEndRsp _,
    rspStatus_hexEndRsp _⟩
  rw [List.map_map, List.map_map]
  refine List.map_congr_left fun g _ => ?_
  simp only [Function.comp_apply, extractLsb_value_and_code_digitRsp, State.groupValue_group_congr hget]

end Sys2Proof.Machine

/-! BitDecoder (spec/43_decoder.md): DEC with its symbol (R180), its END (R231), its three faults (R228 to R230)
and its termination (R183, R184), and its independence from HEXRD (R164). -/

namespace Sys2Proof.Machine

variable {s t u : State}

/-! ### DEC's symbol and END (R180, R231) -/

/-- Settles O40: the walk lands at the end of the path. -/
theorem decEmitsTheSymbolOfThePath : Obligations.DecEmitsTheSymbolOfThePath := by
  intro s bits rest sym hinv hf hdrop hlead
  obtain ⟨pos, hpos, -, hexec⟩ := exec_dec_of_leadsTo hinv.storage hf hdrop hlead
  refine ⟨pos, hpos, ?_⟩
  rw [hexec, State.respond_ok (s := { s with decPos := pos }) (hinv.fcause_eq_zero hf), atPosition]

/-- Settles O41: END comes before the root is looked at. -/
theorem decAnswersEndAtTheEndOfTheStream : Obligations.DecAnswersEndAtTheEndOfTheStream := by
  intro s hinv hf hend
  rw [exec_dec_of_end hf hend, State.respond_endOfData (hinv.fcause_eq_zero hf)]
  rfl

/-! ### DEC's faults (R228 to R230) -/

/-- Where the walk passes INTERNAL nodes only, it goes on from the node they lead to. -/
theorem State.walk_of_passes {cur cur' : NodeIx} {before : List Bool}
    (h : s.Passes cur before cur') (rest : List Bool) (pos : Nat) :
    s.walk (before ++ rest) pos cur = s.walk rest (pos + before.length) cur' := by
  induction before generalizing cur pos with
  | nil =>
    obtain rfl : cur = cur' := h
    rfl
  | cons b before ih =>
    obtain ⟨⟨l, r, hinternal⟩, hrest⟩ := h
    simp only [List.cons_append, walk, hinternal, ih hrest, List.length_cons]
    congr 1
    omega

theorem exec_dec_of_badRoot (hf : s.faulted = false) (hmore : s.decPos ≠ s.bsLen)
    (hroot : s.params.nNode ≤ s.root.toNat ∨ s.nodeAt s.root.toNat = .empty) :
    exec .dec s = .next (s.raise .decBadRoot (s.root.setWidth 48) (encode .dec)) := by
  simp only [exec, execDec, s.unlessFaulted_of_running _ hf, if_neg hmore, if_pos hroot]

theorem exec_dec_of_failed (hf : s.faulted = false) (hmore : s.decPos ≠ s.bsLen)
    (hroot : s.root.toNat < s.params.nNode) (hnode : s.nodeAt s.root.toNat ≠ .empty)
    {c : FaultCause} {info : Detail}
    (hwalk : s.walk (s.bitStream.drop s.decPos.toNat) s.decPos.toNat s.root = .failed c info) :
    exec .dec s = .next (s.raise c info (encode .dec)) := by
  simp only [exec, execDec, s.unlessFaulted_of_running _ hf, if_neg hmore,
    if_neg (not_or.2 ⟨hroot.not_ge, hnode⟩), hwalk]

/-- The bits left to decode end at BS_LEN. -/
theorem State.Inv.decPos_add_length_drop (hinv : s.Inv) :
    s.decPos.toNat + (s.bitStream.drop s.decPos.toNat).length = s.bsLen.toNat := by
  have hle := hinv.positions.dec_le_len
  rw [List.length_drop, s.bitStream_eq hinv.storage, hinv.storage.2.2]
  omega

/-- Settles O42: the root is looked at first; then the walk fails where the path that the bits spell stops
short or has no child. -/
theorem decFaultsInItsCheckOrder : Obligations.DecFaultsInItsCheckOrder := by
  refine fun s hinv hf hmore => ⟨fun hroot => ?badRoot, fun hroot hnode =>
    ⟨fun cur hpass => ?midPath, fun before bit rest cur pos hdrop hpass hchild hpos => ?noChild⟩⟩
  case badRoot => exact commandFaults_of_raise (exec_dec_of_badRoot hf hmore hroot)
  case midPath =>
    have hend := hinv.decPos_add_length_drop
    have hwalk := State.walk_of_passes hpass [] s.decPos.toNat
    rw [List.append_nil, hend, State.walk, BitVec.ofNat_toNat, BitVec.setWidth_eq] at hwalk
    exact commandFaults_of_raise (exec_dec_of_failed hf hmore hroot hnode hwalk)
  case noChild =>
    have hwalk := State.walk_of_passes hpass (bit :: rest) s.decPos.toNat
    rw [← hdrop, ← hpos] at hwalk
    simp only [State.walk, hchild, BitVec.ofNat_toNat, BitVec.setWidth_eq] at hwalk
    exact commandFaults_of_raise (exec_dec_of_failed hf hmore hroot hnode hwalk)

/-! ### DEC ends (R183, R184) -/

/-- Settles O43: DEC is total, and ends in END, in a fault of the walk or the root, or at a LEAF inside the
stream. -/
theorem decEndsOnEveryTreeAndStream : Obligations.DecEndsOnEveryTreeAndStream := by
  intro s hinv hf
  obtain ⟨t, ht⟩ := exec_total .dec s
  refine ⟨t, ht, ?_⟩
  rcases execDec_next hf ht with ⟨hend, rfl⟩ | ⟨c, info, hc, rfl⟩ | ⟨sym, pos, hpos, hwalk, rfl⟩
  · exact .inl ⟨hend, State.respond_endOfData (hinv.fcause_eq_zero hf) _⟩
  · refine .inr (.inr ⟨c.code, info, ?_, ht⟩)
    rcases hc with rfl | rfl | rfl <;> simp [FaultCause.code]
  · obtain ⟨-, -, n, hn, hleaf⟩ := State.walk_landed hwalk
    have hle := State.walk_landed_le_bsLen hinv.positions.dec_le_len hwalk
    have htoNat : (BitVec.ofNat 24 pos).toNat = pos :=
      Nat.mod_eq_of_lt (hle.trans_lt s.bsLen.isLt)
    refine .inr (.inl ⟨n, sym, hn, hleaf, ?_, ?_, ?_⟩)
    · rw [State.respond_decPos, htoNat]
      exact hpos
    · rw [State.respond_decPos, htoNat]
      exact hle
    · exact State.respond_ok (s := { s with decPos := BitVec.ofNat 24 pos }) (hinv.fcause_eq_zero hf) _

/-! ### DEC and HEXRD do not disturb each other (R164) -/

namespace State

/-- The same block with the decoder at another position. -/
def withDecPos (pos : BitPos) (s : State) : State := { s with decPos := pos }

/-- The same block with the packer at another group. -/
def withHxIdx (g : BitPos) (s : State) : State := { s with hxIdx := g }

variable (s) (g : BitPos)

@[simp] theorem withHxIdx_decPos : (s.withHxIdx g).decPos = s.decPos := rfl
@[simp] theorem withHxIdx_root : (s.withHxIdx g).root = s.root := rfl
@[simp] theorem withHxIdx_bitStream : (s.withHxIdx g).bitStream = s.bitStream := rfl
@[simp] theorem withHxIdx_walk (bits : List Bool) (pos : Nat) (cur : NodeIx) :
    (s.withHxIdx g).walk bits pos cur = s.walk bits pos cur :=
  walk_congr (s := s) (t := s.withHxIdx g) rfl rfl bits pos cur

end State

/-- DEC's end is the same with the packer anywhere. -/
theorem exec_dec_withHxIdx (g : BitPos) (h : exec .dec s = .next t) :
    exec .dec (s.withHxIdx g) = .next (t.withHxIdx g) := by
  refine State.unlessFaulted_map (State.withHxIdx g) (State.withHxIdx g) rfl rfl ?_ h
  simp only [apply_ite (State.withHxIdx g), State.withHxIdx_walk, State.withHxIdx_bitStream,
    State.withHxIdx_decPos, State.withHxIdx_root]
  cases s.walk (s.bitStream.drop s.decPos.toNat) s.decPos.toNat s.root <;> rfl

/-- HEXRD's end is the same with the decoder anywhere. -/
theorem exec_hexrd_withDecPos (pos : BitPos) (h : exec .hexrd s = .next t) :
    exec .hexrd (s.withDecPos pos) = .next (t.withDecPos pos) := by
  refine State.unlessFaulted_map (State.withDecPos pos) (State.withDecPos pos) rfl rfl ?_ h
  rw [apply_ite (State.withDecPos pos)]
  rfl

/-- A transaction does not depend on the one outstanding before it. -/
theorem transact_atInterface {w : CmdWord} {r : RspWord} (txn : Transaction)
    (h : transact s w = some (t, r)) : transact (s.atInterface txn s.drive) w = some (t, r) := by
  obtain ⟨u, hu, htxn, rfl⟩ := transact_eq_some h
  obtain ⟨-, hdrive⟩ := executeWord_params_and_drive hu
  have hu' := executeWord_atInterface txn s.drive hu
  rw [← hdrive] at hu' ⊢
  simp only [transact, hu', State.withDrive, htxn]

theorem transact_dec_withHxIdx {r : RspWord} (g : BitPos)
    (h : transact s (encode .dec) = some (t, r)) :
    transact (s.withHxIdx g) (encode .dec) = some (t.withHxIdx g, r) := by
  obtain ⟨u, hu, htxn, rfl⟩ := transact_eq_some h
  rw [executeWord_encode] at hu
  exact transact_encode (exec_dec_withHxIdx g hu) htxn

theorem transact_hexrd_withDecPos {r : RspWord} (pos : BitPos)
    (h : transact s (encode .hexrd) = some (t, r)) :
    transact (s.withDecPos pos) (encode .hexrd) = some (t.withDecPos pos, r) := by
  obtain ⟨u, hu, htxn, rfl⟩ := transact_eq_some h
  rw [executeWord_encode] at hu
  exact transact_encode (exec_hexrd_withDecPos pos hu) htxn

/-- A DEC that does not fault moves DEC_POS and nothing else of the block. -/
theorem transact_dec_frame {r : RspWord} (h : transact s (encode .dec) = some (t, r))
    (hf : t.faulted = false) : ∃ pos, t = (s.withDecPos pos).atInterface .idle s.drive := by
  obtain ⟨u, hu, -, rfl⟩ := transact_eq_some h
  rw [executeWord_encode] at hu
  rcases exec_next hu with ⟨-, rfl⟩ | ⟨-, c, info, rfl⟩ | he
  · exact ⟨s.decPos, rfl⟩
  · exact absurd hf (by simp)
  · cases he with
    | decEnd => exact ⟨s.decPos, rfl⟩
    | dec => exact ⟨_, rfl⟩

/-- A HEXRD moves HX_IDX and nothing else of the block. -/
theorem transact_hexrd_frame {r : RspWord} (h : transact s (encode .hexrd) = some (t, r)) :
    ∃ g, t = (s.withHxIdx g).atInterface .idle s.drive := by
  obtain ⟨u, hu, -, rfl⟩ := transact_eq_some h
  rw [executeWord_encode] at hu
  cases hf : s.faulted with
  | true =>
    rw [exec_of_faulted (i := .hexrd) hf nofun (fun _ _ => nofun), Host.Outcome.next.injEq] at hu
    subst hu
    exact ⟨s.hxIdx, rfl⟩
  | false =>
    rcases execHexrd_next hf hu with ⟨-, rfl⟩ | ⟨-, rfl⟩
    · exact ⟨s.hxIdx, rfl⟩
    · exact ⟨_, rfl⟩

/-- Settles O45: each of the two moves its own position, and its answer and its move do not depend on the
other's. -/
theorem decodingAndPackingDoNotDisturbEachOther :
    Obligations.DecodingAndPackingDoNotDisturbEachOther := by
  intro s s1 s2 r1 r2 hdec hhex
  obtain ⟨g, hs2⟩ := transact_hexrd_frame hhex
  refine ⟨?decFrame, ?hexFrame, fun hf hf1 => ?commute⟩
  case decFrame =>
    obtain ⟨a, ha, -, rfl⟩ := transact_eq_some hdec
    rw [executeWord_encode] at ha
    obtain ⟨-, -, -, -, -, hbs, -, hhx, -⟩ := eachCommandWritesOnlyItsState _ _ _ ha nofun
    obtain ⟨hbits, hlen⟩ := hbs nofun nofun nofun
    refine ⟨hhx nofun nofun nofun, ?_⟩
    simp only [State.bitStream, hbits, hlen]
  case hexFrame =>
    rw [hs2]
    exact ⟨rfl, rfl⟩
  case commute =>
    obtain ⟨pos, hs1⟩ := transact_dec_frame hdec hf1
    have hhex' := transact_atInterface .idle (transact_hexrd_withDecPos pos hhex)
    have hdec' := transact_atInterface .idle (transact_dec_withHxIdx g hdec)
    subst hs1 hs2
    exact ⟨_, hhex', hdec'⟩

end Sys2Proof.Machine

/-! Host conventions: bit strings in assembly text (R10, R99) and the sizing advice (R8). -/

namespace Sys2Proof.Machine

/-! ### Bit strings in assembly text (R10, R99) -/

namespace Asm

theorem stringField_of_bad {most lenBits width : Nat} {bs : List Bool}
    (h : bs.length = 0 ∨ most < bs.length) :
    stringField most lenBits width bs = .error .badBitString :=
  if_pos h

/-- A bit string that fits its field is stored with its length, right-aligned, and read back whole. -/
theorem stringField_of_fits {most lenBits width : Nat} {bs : List Bool} (hpos : 1 ≤ bs.length)
    (hmost : bs.length ≤ most) (hlen : most < 2 ^ lenBits) (hwidth : most ≤ width) :
    ∃ len field, stringField most lenBits width bs = .ok (len, field) ∧ len.toNat = bs.length ∧
      field.toNat < 2 ^ len.toNat ∧ bitString len.toNat field = bs := by
  have htoNat : (BitVec.ofNat lenBits bs.length).toNat = bs.length := by
    rw [BitVec.toNat_ofNat, Nat.mod_eq_of_lt (by omega)]
  refine ⟨_, _, if_neg (by omega), htoNat, ?_, ?_⟩
  · rw [htoNat, BitVec.toNat_ofNat]
    exact (Nat.mod_le _ _).trans_lt (bitsValue_lt bs)
  · rw [htoNat]
    exact bitString_of_bitsValue bs (by omega)

end Asm

/-- Settles O50: LDCT and PUTBITS store their bit string in the same way, in fields of their own widths. -/
theorem assembledBitStringsAreReadBack : Obligations.AssembledBitStringsAreReadBack := by
  refine fun cti sym bits => ⟨fun hbad => ?ldctRefused, fun hpos hmost => ?ldct,
    fun hbad => ?putbitsRefused, fun hpos hmost => ?putbits⟩
  case ldctRefused =>
    rw [Asm.ldctOf, Asm.stringField_of_bad hbad]
    rfl
  case ldct =>
    obtain ⟨len, code, hfield, hread⟩ :=
      Asm.stringField_of_fits (lenBits := 5) (width := 26) hpos hmost (by decide) (by decide)
    refine ⟨len, code, ?_, hread⟩
    rw [Asm.ldctOf, hfield]
    rfl
  case putbitsRefused =>
    rw [Asm.putbitsOf, Asm.stringField_of_bad hbad]
    rfl
  case putbits =>
    obtain ⟨cnt, data, hfield, hread⟩ :=
      Asm.stringField_of_fits (lenBits := 6) (width := 32) hpos hmost (by decide) (by decide)
    refine ⟨cnt, data, ?_, hread⟩
    rw [Asm.putbitsOf, hfield]
    rfl

/-! ### Sizes of a tree (R8) -/

namespace HostTree

theorem leaves_pos (tree : HostTree) : 1 ≤ tree.leaves := by
  induction tree with
  | leaf => exact le_rfl
  | fork _ l r ihl ihr => exact Nat.le_add_right_of_le ihl

/-- A tree has one node less than twice its leaves. -/
theorem nodes_add_one (tree : HostTree) : tree.nodes + 1 = 2 * tree.leaves := by
  induction tree with
  | leaf => rfl
  | fork _ l r ihl ihr =>
    simp only [nodes, leaves]
    omega

/-- A path passes at least one leaf at each of its steps. -/
theorem depth_lt_leaves (tree : HostTree) : tree.depth < tree.leaves := by
  induction tree with
  | leaf => exact Nat.one_pos
  | fork _ l r ihl ihr =>
    have hl := l.leaves_pos
    have hr := r.leaves_pos
    simp only [depth, leaves]
    omega

/-- A path in a fork is a step and a path in the child it leads to. -/
theorem pathTo_fork_eq_some {sym : Sym} {ni : NodeIx} {l r : HostTree} {path : List Bool}
    (h : (fork ni l r).pathTo sym = some path) :
    (∃ rest, l.pathTo sym = some rest ∧ path = false :: rest) ∨
      ∃ rest, r.pathTo sym = some rest ∧ path = true :: rest := by
  rcases (Option.orElse_eq_some _ _ _).1 h with hl | ⟨-, hr⟩
  · obtain ⟨rest, hrest, rfl⟩ := Option.map_eq_some_iff.1 hl
    exact .inl ⟨rest, hrest, rfl⟩
  · obtain ⟨rest, hrest, rfl⟩ := Option.map_eq_some_iff.1 hr
    exact .inr ⟨rest, hrest, rfl⟩

/-- `path` leads from the root of the tree to a leaf with code-table index `cti` and symbol `sym`. -/
inductive LeafAt : HostTree → List Bool → BitVec 8 → Sym → Prop
  | leaf {cti ni sym} : LeafAt (.leaf cti ni sym) [] cti sym
  | left {ni l r path cti sym} : LeafAt l path cti sym → LeafAt (.fork ni l r) (false :: path) cti sym
  | right {ni l r path cti sym} : LeafAt r path cti sym → LeafAt (.fork ni l r) (true :: path) cti sym

theorem leafAt_of_pathTo {sym : Sym} {tree : HostTree} {path : List Bool}
    (h : tree.pathTo sym = some path) : ∃ cti, tree.LeafAt path cti sym := by
  induction tree generalizing path with
  | leaf cti ni own =>
    simp only [pathTo, Option.ite_none_right_eq_some, Option.some.injEq] at h
    obtain ⟨rfl, rfl⟩ := h
    exact ⟨cti, .leaf⟩
  | fork ni l r ihl ihr =>
    rcases pathTo_fork_eq_some h with ⟨rest, hrest, rfl⟩ | ⟨rest, hrest, rfl⟩
    · exact (ihl hrest).imp fun _ => .left
    · exact (ihr hrest).imp fun _ => .right

namespace LeafAt

variable {tree : HostTree} {path : List Bool} {cti : BitVec 8} {sym : Sym}

theorem length_le_depth (h : tree.LeafAt path cti sym) : path.length ≤ tree.depth := by
  induction h with
  | leaf => exact le_rfl
  | left _ ih => exact Nat.succ_le_succ (ih.trans (le_max_left _ _))
  | right _ ih => exact Nat.succ_le_succ (ih.trans (le_max_right _ _))

theorem length_pos {ni : NodeIx} {l r : HostTree} (h : (fork ni l r).LeafAt path cti sym) :
    1 ≤ path.length := by
  cases h <;> exact Nat.succ_pos _

end LeafAt

/-- A code has at least one bit, and more than one only in a tree that is deeper. -/
theorem length_code {sym : Sym} {tree : HostTree} {bits : List Bool}
    (h : tree.code sym = some bits) : 1 ≤ bits.length ∧ bits.length ≤ max 1 tree.depth := by
  cases tree with
  | leaf =>
    simp only [code, Option.ite_none_right_eq_some, Option.some.injEq] at h
    obtain ⟨-, rfl⟩ := h
    exact ⟨le_rfl, le_max_left _ _⟩
  | fork ni l r =>
    obtain ⟨cti, hleaf⟩ := leafAt_of_pathTo (tree := fork ni l r) h
    exact ⟨hleaf.length_pos, hleaf.length_le_depth.trans (le_max_right _ _)⟩

end HostTree

/-- Settles O52: the sizes follow from the number of leaves. -/
theorem advisedSizesHoldEveryTree : Obligations.AdvisedSizesHoldEveryTree := by
  intro p tree hp ⟨hnode, hnode2, hmax⟩ hfit
  obtain ⟨-, -, ⟨hlen, -⟩, -⟩ := hp
  have hleaves := tree.leaves_pos
  have hnodes := tree.nodes_add_one
  have hdepth := tree.depth_lt_leaves
  refine ⟨by omega, by omega, by omega, by omega, fun _ => by omega, fun sym code hcode => ?_⟩
  obtain ⟨hpos, hle⟩ := HostTree.length_code hcode
  exact ⟨hpos, hle.trans (max_le hlen (by omega))⟩

end Sys2Proof.Machine

/-! Loading the tables (R114, R115, R262): loading commands that write different places, in any order, run without
a fault and leave what they write; those of a tree leave consistent tables. -/

namespace Sys2Proof.Machine

variable {s s₀ t : State} {p : Params} {i : Instr} {is : List Instr}

/-! ### What a table holds after writes to different places -/

/-- The table `read` holds what the list says was written, each value at its index, and `vacant` elsewhere. -/
def HoldsWrites {w : Nat} {α : Type} (vacant : α) (read : Nat → α) (writes : List (BitVec w × α)) : Prop :=
  ∀ n v, v ≠ vacant → (read n = v ↔ ∃ ix, ix.toNat = n ∧ (ix, v) ∈ writes)

/-- One more write, to an index not written before. -/
theorem HoldsWrites.write {w : Nat} {α : Type} {vacant : α} {read : Nat → α}
    {writes : List (BitVec w × α)} (h : HoldsWrites vacant read writes) {ix : BitVec w} (v : α)
    (hfresh : ix ∉ writes.map Prod.fst) :
    HoldsWrites vacant (fun n => if n = ix.toNat then v else read n) (writes ++ [(ix, v)]) := by
  intro n u hu
  by_cases hn : n = ix.toNat
  · subst hn
    simp only [if_true]
    constructor
    · rintro rfl
      exact ⟨ix, rfl, List.mem_append_right _ (List.mem_singleton_self _)⟩
    · rintro ⟨ix', hix, hmem⟩
      obtain rfl : ix' = ix := BitVec.eq_of_toNat_eq hix
      rcases List.mem_append.1 hmem with hmem | hmem
      · exact absurd (List.mem_map_of_mem hmem) hfresh
      · exact (Prod.mk.inj (List.mem_singleton.1 hmem)).2.symm
  · simp only [if_neg hn, h n u hu]
    refine exists_congr fun ix' => and_congr_right fun hix => ?_
    rw [List.mem_append, List.mem_singleton, Prod.mk.injEq]
    exact ⟨.inl, fun hmem => hmem.resolve_right fun heq => hn (hix ▸ heq.1 ▸ rfl)⟩

/-! ### Loading commands -/

/-- The code-table entry a command writes, with its index (R110). -/
def ctWrite : Instr → Option (BitVec 8 × CtEntry)
  | .ldct cti len code sym => some (cti, .valid sym len code)
  | _                      => none

/-- The node a command writes, with its index (R111, R112). -/
def nodeWrite : Instr → Option (NodeIx × Node)
  | .ldleaf ni sym        => some (ni, .leaf sym)
  | .ldint ni left right  => some (ni, .internal left right)
  | _                     => none

/-- The index a command writes to ROOT (R113). -/
def rootWrite : Instr → Option NodeIx
  | .setroot ni => some ni
  | _           => none

/-- A command that loads a table or ROOT, with operands that are legal by themselves (R110 to R113). -/
def Loads (p : Params) : Instr → Prop
  | .ldct cti len code sym => cti.toNat < p.nSym ∧ ¬ BadCodeLength p len code ∧ IsSymbol sym
  | .ldleaf ni sym         => ni.toNat < p.nNode ∧ IsSymbol sym
  | .ldint ni left right   => ni.toNat < p.nNode ∧ ¬ BadChild p left ∧ ¬ BadChild p right
  | .setroot ni            => ni.toNat < p.nNode
  | _                      => False

/-- Loading commands that write different entries, nodes and symbols, and ROOT once at most. -/
structure LoadsDistinct (p : Params) (is : List Instr) : Prop where
  legal        : ∀ i ∈ is, Loads p i
  ct_indices   : ((is.filterMap ctWrite).map Prod.fst).Nodup
  ct_symbols   : ((is.filterMap ctWrite).filterMap (·.2.sym?)).Nodup
  node_indices : ((is.filterMap nodeWrite).map Prod.fst).Nodup
  leaf_symbols : ((is.filterMap nodeWrite).filterMap (·.2.sym?)).Nodup
  one_root     : (is.filterMap rootWrite).length ≤ 1

namespace LoadsDistinct

/-- The order of the commands does not matter. -/
theorem perm {js : List Instr} (h : LoadsDistinct p is) (hperm : js.Perm is) : LoadsDistinct p js where
  legal i hi := h.legal i (hperm.mem_iff.1 hi)
  ct_indices := ((hperm.filterMap _).map _).nodup_iff.2 h.ct_indices
  ct_symbols := ((hperm.filterMap _).filterMap _).nodup_iff.2 h.ct_symbols
  node_indices := ((hperm.filterMap _).map _).nodup_iff.2 h.node_indices
  leaf_symbols := ((hperm.filterMap _).filterMap _).nodup_iff.2 h.leaf_symbols
  one_root := (hperm.filterMap rootWrite).length_eq ▸ h.one_root

theorem of_append {js : List Instr} (h : LoadsDistinct p (is ++ js)) : LoadsDistinct p is := by
  have hsub := List.sublist_append_left is js
  exact
    { legal := fun i hi => h.legal i (List.mem_append_left _ hi)
      ct_indices := h.ct_indices.sublist ((hsub.filterMap _).map _)
      ct_symbols := h.ct_symbols.sublist ((hsub.filterMap _).filterMap _)
      node_indices := h.node_indices.sublist ((hsub.filterMap _).map _)
      leaf_symbols := h.leaf_symbols.sublist ((hsub.filterMap _).filterMap _)
      one_root := (hsub.filterMap rootWrite).length_le.trans h.one_root }

end LoadsDistinct

/-- The symbol of a write is among the symbols written. -/
theorem HoldsWrites.symbol_mem {w : Nat} {α : Type} {vacant : α} {read : Nat → α}
    {writes : List (BitVec w × α)} (h : HoldsWrites vacant read writes) (symbol : α → Option Sym)
    (hvacant : symbol vacant = none) {n : Nat} {x : Sym} (hx : symbol (read n) = some x) :
    x ∈ writes.filterMap fun e => symbol e.2 := by
  have hne : read n ≠ vacant := fun hread => by simp [hread, hvacant] at hx
  obtain ⟨ix, -, hmem⟩ := (h n _ hne).1 rfl
  exact List.mem_filterMap.2 ⟨_, hmem, hx⟩

/-! One more command, at the end of a list, adds its write to the list's. -/

section

variable {β : Type} {f : Instr → Option β}

theorem filterMap_concat_some {b : β} (h : f i = some b) :
    (is ++ [i]).filterMap f = is.filterMap f ++ [b] := by
  rw [List.filterMap_append, List.filterMap_cons_some h, List.filterMap_nil]

theorem filterMap_concat_none (h : f i = none) : (is ++ [i]).filterMap f = is.filterMap f := by
  rw [List.filterMap_append, List.filterMap_cons_none h, List.filterMap_nil, List.append_nil]

theorem not_mem_of_nodup_concat {l : List β} {b : β} (h : (l ++ [b]).Nodup) : b ∉ l :=
  fun hmem => List.disjoint_of_nodup_append h hmem (List.mem_singleton_self b)

end

/-- The index of a last write to an index of its own has not been written before. -/
theorem fresh_index {w : Nat} {α : Type} {f : Instr → Option (BitVec w × α)} {ix : BitVec w} {v : α}
    (hwrite : f i = some (ix, v)) (h : (((is ++ [i]).filterMap f).map Prod.fst).Nodup) :
    ix ∉ (is.filterMap f).map Prod.fst := by
  rw [filterMap_concat_some hwrite, List.map_append] at h
  exact not_mem_of_nodup_concat h

/-- The same of its symbol. -/
theorem fresh_symbol {w : Nat} {α : Type} {f : Instr → Option (BitVec w × α)} {ix : BitVec w} {v : α}
    {symbol : α → Option Sym} {x : Sym} (hwrite : f i = some (ix, v)) (hx : symbol v = some x)
    (h : (((is ++ [i]).filterMap f).filterMap fun e => symbol e.2).Nodup) :
    x ∉ (is.filterMap f).filterMap fun e => symbol e.2 := by
  rw [filterMap_concat_some hwrite, List.filterMap_append] at h
  simp only [List.filterMap_cons, hx, List.filterMap_nil] at h
  exact not_mem_of_nodup_concat h

/-- `s` is the cleared block of `s₀` after the loading commands `is`: their writes are what the tables and ROOT
hold, and nothing else has changed. -/
structure Loaded (s₀ : State) (is : List Instr) (s : State) : Prop where
  frame : ∃ ct node root, s = { s₀.clear with ct := ct, node := node, root := root }
  inv   : s.Inv
  ct    : HoldsWrites .invalid s.ctAt (is.filterMap ctWrite)
  node  : HoldsWrites .empty s.nodeAt (is.filterMap nodeWrite)
  root  : ∀ ni ∈ is.filterMap rootWrite, s.root = ni

theorem loaded_nil (hp : s₀.params.Legal) : Loaded s₀ [] s₀.clear where
  frame := ⟨_, _, _, rfl⟩
  inv := (State.resetOf_inv hp).atInterface _ _
  ct n v hv := by simp [hv.symm]
  node n v hv := by simp [hv.symm]
  root := nofun

namespace Loaded

theorem params_eq (h : Loaded s₀ is s) : s.params = s₀.params := by
  obtain ⟨_, _, _, rfl⟩ := h.frame
  rfl

theorem running (h : Loaded s₀ is s) : s.faulted = false := by
  obtain ⟨_, _, _, rfl⟩ := h.frame
  rfl

/-- A write of a loading command, answered OK with the response taken. -/
theorem transact_of_exec (h : Loaded s₀ is s) {s' : State}
    (hexec : exec i s = .next (s'.respond .ok 0)) (hcause : s'.fcause = s.fcause) :
    transact s (encode i) = some ({ s' with txn := .idle }, 0) := by
  rw [State.respond_ok_zero (hcause.trans (h.inv.fcause_eq_zero h.running))] at hexec
  exact transact_encode (t := { s' with txn := .answered 0 }) hexec rfl

theorem writeCt (h : Loaded s₀ is s) {cti : BitVec 8} {e : CtEntry}
    (hwrite : ctWrite i = some (cti, e)) (hnode : nodeWrite i = none) (hroot : rootWrite i = none)
    (hcti : cti.toNat < s.params.nSym) (hfresh : cti ∉ (is.filterMap ctWrite).map Prod.fst)
    (hinv : (s.writeCt cti.toNat e).Inv) :
    Loaded s₀ (is ++ [i]) { s.writeCt cti.toNat e with txn := .idle } where
  frame := by
    obtain ⟨ct, node, root, hs⟩ := h.frame
    exact ⟨(s.writeCt cti.toNat e).ct, node, root, by subst hs; rfl⟩
  inv := hinv.atInterface _ _
  ct := by
    rw [filterMap_concat_some hwrite]
    have hread : (s.writeCt cti.toNat e).ctAt = fun n => if n = cti.toNat then e else s.ctAt n :=
      funext fun n => s.ctAt_writeCt _ _ _ (h.inv.storage.1.symm ▸ hcti)
    exact hread ▸ h.ct.write e hfresh
  node := by
    rw [filterMap_concat_none hnode]
    exact h.node
  root := by
    rw [filterMap_concat_none hroot]
    exact h.root

theorem writeNode (h : Loaded s₀ is s) {ni : NodeIx} {v : Node}
    (hwrite : nodeWrite i = some (ni, v)) (hct : ctWrite i = none) (hroot : rootWrite i = none)
    (hni : ni.toNat < s.params.nNode) (hfresh : ni ∉ (is.filterMap nodeWrite).map Prod.fst)
    (hinv : (s.writeNode ni.toNat v).Inv) :
    Loaded s₀ (is ++ [i]) { s.writeNode ni.toNat v with txn := .idle } where
  frame := by
    obtain ⟨ct, node, root, hs⟩ := h.frame
    exact ⟨ct, (s.writeNode ni.toNat v).node, root, by subst hs; rfl⟩
  inv := hinv.atInterface _ _
  ct := by
    rw [filterMap_concat_none hct]
    exact h.ct
  node := by
    rw [filterMap_concat_some hwrite]
    have hread : (s.writeNode ni.toNat v).nodeAt = fun n => if n = ni.toNat then v else s.nodeAt n :=
      funext fun n => s.nodeAt_writeNode _ _ _ (h.inv.storage.2.1.symm ▸ hni)
    exact hread ▸ h.node.write v hfresh
  root := by
    rw [filterMap_concat_none hroot]
    exact h.root

/-- ROOT is written once, so it holds what the command wrote. -/
theorem setRoot (h : Loaded s₀ is s) {ni : NodeIx} (hni : ni.toNat < s.params.nNode)
    (hone : ((is ++ [Instr.setroot ni]).filterMap rootWrite).length ≤ 1) :
    Loaded s₀ (is ++ [.setroot ni]) { s with root := ni, txn := .idle } where
  frame := by
    obtain ⟨ct, node, root, hs⟩ := h.frame
    exact ⟨ct, node, ni, by subst hs; rfl⟩
  inv := (h.inv.setRoot hni).atInterface _ _
  ct := by
    rw [filterMap_concat_none rfl]
    exact h.ct
  node := by
    rw [filterMap_concat_none rfl]
    exact h.node
  root := by
    rw [filterMap_concat_some (b := ni) rfl] at hone ⊢
    rw [List.length_append, List.length_singleton] at hone
    rw [List.eq_nil_of_length_eq_zero (by omega : (is.filterMap rootWrite).length = 0)]
    exact fun n hn => (List.mem_singleton.1 hn).symm

/-- A loading command that writes a place of its own answers OK and adds its write. -/
theorem transact_load (h : Loaded s₀ is s) (hd : LoadsDistinct s₀.params (is ++ [i])) :
    ∃ t, transact s (encode i) = some (t, 0) ∧ Loaded s₀ (is ++ [i]) t := by
  obtain ⟨hlegal, hctix, hctsym, hnodeix, hleafsym, hroot⟩ := hd
  have hi := hlegal i (List.mem_append_right _ (List.mem_singleton_self i))
  rw [← h.params_eq] at hi
  have hf := h.running
  cases i with
  | ldct cti len code sym =>
    obtain ⟨hcti, hlen, hsym⟩ := hi
    have hnew := fresh_symbol (symbol := CtEntry.sym?) (i := .ldct cti len code sym) rfl rfl hctsym
    have hfree : s.findCode (some cti.toNat) sym = none :=
      s.findCode_none.2 fun j _ _ hheld => hnew (h.ct.symbol_mem CtEntry.sym? rfl hheld)
    exact ⟨_, h.transact_of_exec (exec_ldct_of_free hf hcti hlen hsym hfree) rfl,
      h.writeCt rfl rfl rfl hcti (fresh_index (i := .ldct cti len code sym) rfl hctix)
        (h.inv.writeCt hcti hlen hsym hfree)⟩
  | ldleaf ni sym =>
    obtain ⟨hni, hsym⟩ := hi
    have hnew := fresh_symbol (symbol := Node.sym?) (i := .ldleaf ni sym) rfl rfl hleafsym
    have hother : ∀ j < s.params.nNode, j ≠ ni.toNat → (s.nodeAt j).sym? ≠ some sym :=
      fun j _ _ hheld => hnew (h.node.symbol_mem Node.sym? rfl hheld)
    exact ⟨_, h.transact_of_exec (exec_ldleaf_of_free hf hni hsym (s.findLeaf_none.2 hother)) rfl,
      h.writeNode rfl rfl rfl hni (fresh_index (i := .ldleaf ni sym) rfl hnodeix)
        (h.inv.writeNode (v := .leaf sym) hni hsym fun j hj hne _ => hother j hj hne)⟩
  | ldint ni left right =>
    obtain ⟨hni, hleft, hright⟩ := hi
    exact ⟨_, h.transact_of_exec (exec_ldint_of_legal hf hni hleft hright) rfl,
      h.writeNode rfl rfl rfl hni (fresh_index (i := .ldint ni left right) rfl hnodeix)
        (h.inv.writeNode (v := .internal left right) hni ⟨hleft, hright⟩
          fun _ _ _ hsym => absurd rfl hsym)⟩
  | setroot ni =>
    exact ⟨_, h.transact_of_exec (exec_setroot_of_lt hf hi) rfl, h.setRoot hi hroot⟩
  | _ => exact hi.elim

/-- Loading commands that write different places run one after the other, all answered OK. -/
theorem runWords_load {js : List Instr} (h : Loaded s₀ is s)
    (hd : LoadsDistinct s₀.params (is ++ js)) :
    ∃ t, runWords s (js.map encode) = some (t, List.replicate js.length 0) ∧
      Loaded s₀ (is ++ js) t := by
  induction js generalizing is s with
  | nil => exact ⟨s, rfl, by rwa [List.append_nil]⟩
  | cons i js ih =>
    rw [List.append_cons] at hd ⊢
    obtain ⟨u, hfirst, hu⟩ := h.transact_load hd.of_append
    obtain ⟨t, hrest, ht⟩ := ih hu hd
    exact ⟨t, runWords_cons hfirst hrest, ht⟩

end Loaded

end Sys2Proof.Machine

/-! The commands that load a tree (R114): they write different places, and leave a code table consistent with the
tree at ROOT (R115). -/

namespace Sys2Proof.Machine

variable {s s₀ : State} {p : Params} {i : Instr} {is : List Instr} {tree : HostTree} {parent : NodeIx}

/-! ### A code as the two fields of LDCT (R10) -/

/-- The entry of a symbol with the code `bits`: its length, and its bits right-aligned. -/
def codeEntry (sym : Sym) (bits : List Bool) : CtEntry :=
  .valid sym (BitVec.ofNat 5 bits.length) (BitVec.ofNat 26 (bitsValue bits))

theorem codeEntry_ne_invalid (sym : Sym) (bits : List Bool) : codeEntry sym bits ≠ .invalid := nofun

/-- The LDCT of that entry (R114). -/
def codeCommand (cti : BitVec 8) (sym : Sym) (bits : List Bool) : Instr :=
  .ldct cti (BitVec.ofNat 5 bits.length) (BitVec.ofNat 26 (bitsValue bits)) sym

theorem toNat_codeLength {bits : List Bool} (h : bits.length ≤ 26) :
    (BitVec.ofNat 5 bits.length).toNat = bits.length :=
  Nat.mod_eq_of_lt (by omega)

theorem bitString_codeEntry {bits : List Bool} (h : bits.length ≤ 26) :
    bitString (BitVec.ofNat 5 bits.length).toNat (BitVec.ofNat 26 (bitsValue bits)) = bits := by
  rw [toNat_codeLength h, bitString_of_bitsValue bits h]

theorem loads_codeCommand {cti : BitVec 8} {sym : Sym} {bits : List Bool} (hp : p.Legal)
    (hcti : cti.toNat < p.nSym) (hsym : IsSymbol sym) (hpos : 1 ≤ bits.length)
    (hmax : bits.length ≤ p.maxLen) : Loads p (codeCommand cti sym bits) := by
  obtain ⟨-, -, ⟨-, hlen⟩, -⟩ := hp
  have hcode : (BitVec.ofNat 26 (bitsValue bits)).toNat < 2 ^ bits.length :=
    (Nat.mod_le _ _).trans_lt (bitsValue_lt bits)
  refine ⟨hcti, ?_, hsym⟩
  rw [BadCodeLength, toNat_codeLength (hmax.trans hlen)]
  rintro (h | h | h) <;> omega

/-! ### What the commands of a tree write (R114) -/

namespace HostTree

theorem index_mem_indices (tree : HostTree) : tree.index ∈ tree.indices := by
  cases tree with
  | leaf => exact List.mem_singleton_self _
  | fork => exact List.mem_append_right _ (List.mem_singleton_self _)

theorem mem_loadCodes_iff {pre : List Bool} :
    i ∈ tree.loadCodes pre ↔
      ∃ path cti sym, tree.LeafAt path cti sym ∧ i = codeCommand cti sym (pre ++ path) := by
  induction tree generalizing pre with
  | leaf cti ni sym =>
    rw [loadCodes, List.mem_singleton]
    constructor
    · rintro rfl
      exact ⟨[], cti, sym, .leaf, by rw [List.append_nil]; rfl⟩
    · rintro ⟨path, cti, sym, h, rfl⟩
      cases h
      rw [List.append_nil]
      rfl
  | fork ni l r ihl ihr =>
    rw [loadCodes, List.mem_append, ihl, ihr]
    constructor
    · rintro (⟨path, cti, sym, h, rfl⟩ | ⟨path, cti, sym, h, rfl⟩)
      · exact ⟨false :: path, cti, sym, .left h, by rw [List.append_cons pre false path]⟩
      · exact ⟨true :: path, cti, sym, .right h, by rw [List.append_cons pre true path]⟩
    · rintro ⟨path, cti, sym, h, rfl⟩
      cases h with
      | @left _ _ _ path _ _ h => exact .inl ⟨path, cti, sym, h, by rw [List.append_cons pre false path]⟩
      | @right _ _ _ path _ _ h => exact .inr ⟨path, cti, sym, h, by rw [List.append_cons pre true path]⟩

theorem LeafAt.mem {path : List Bool} {cti : BitVec 8} {sym : Sym} (h : tree.LeafAt path cti sym) :
    cti ∈ tree.ctis ∧ sym ∈ tree.symbols := by
  induction h with
  | leaf => exact ⟨List.mem_singleton_self _, List.mem_singleton_self _⟩
  | left _ ih => exact ⟨List.mem_append_left _ ih.1, List.mem_append_left _ ih.2⟩
  | right _ ih => exact ⟨List.mem_append_right _ ih.1, List.mem_append_right _ ih.2⟩

section

variable (tree) (pre : List Bool)

@[simp] theorem map_fst_ctWrite_loadCodes :
    ((tree.loadCodes pre).filterMap ctWrite).map Prod.fst = tree.ctis := by
  induction tree generalizing pre with
  | leaf => rfl
  | fork _ l r ihl ihr => simp only [loadCodes, List.filterMap_append, List.map_append, ihl, ihr, ctis]

@[simp] theorem symbols_ctWrite_loadCodes :
    ((tree.loadCodes pre).filterMap ctWrite).filterMap (·.2.sym?) = tree.symbols := by
  induction tree generalizing pre with
  | leaf => rfl
  | fork _ l r ihl ihr => simp only [loadCodes, List.filterMap_append, ihl, ihr, symbols]

@[simp] theorem nodeWrite_loadCodes : (tree.loadCodes pre).filterMap nodeWrite = [] := by
  induction tree generalizing pre with
  | leaf => rfl
  | fork _ l r ihl ihr => simp only [loadCodes, List.filterMap_append, ihl, ihr, List.append_nil]

@[simp] theorem rootWrite_loadCodes : (tree.loadCodes pre).filterMap rootWrite = [] := by
  induction tree generalizing pre with
  | leaf => rfl
  | fork _ l r ihl ihr => simp only [loadCodes, List.filterMap_append, ihl, ihr, List.append_nil]

@[simp] theorem ctWrite_loadNodes : tree.loadNodes.filterMap ctWrite = [] := by
  induction tree with
  | leaf => rfl
  | fork _ l r ihl ihr =>
    simp only [loadNodes, List.filterMap_append, ihl, ihr, List.nil_append]
    rfl

@[simp] theorem rootWrite_loadNodes : tree.loadNodes.filterMap rootWrite = [] := by
  induction tree with
  | leaf => rfl
  | fork _ l r ihl ihr =>
    simp only [loadNodes, List.filterMap_append, ihl, ihr, List.nil_append]
    rfl

@[simp] theorem map_fst_nodeWrite_loadNodes :
    (tree.loadNodes.filterMap nodeWrite).map Prod.fst = tree.indices := by
  induction tree with
  | leaf => rfl
  | fork _ l r ihl ihr =>
    simp only [loadNodes, List.filterMap_append, List.map_append, ihl, ihr, indices]
    rfl

@[simp] theorem symbols_nodeWrite_loadNodes :
    (tree.loadNodes.filterMap nodeWrite).filterMap (·.2.sym?) = tree.symbols := by
  induction tree with
  | leaf => rfl
  | fork _ l r ihl ihr =>
    simp only [loadNodes, List.filterMap_append, ihl, ihr, symbols]
    exact List.append_nil _

end

/-! ### The same of the whole list -/

section

variable (tree) (parent)

theorem ctWrite_load_fork (ni : NodeIx) (l r : HostTree) :
    ((fork ni l r).load parent).filterMap ctWrite =
      ((fork ni l r).loadCodes []).filterMap ctWrite := by
  rw [load, List.filterMap_append, List.filterMap_append, ctWrite_loadNodes, List.append_nil]
  exact List.append_nil _

theorem nodeWrite_load_fork (ni : NodeIx) (l r : HostTree) :
    ((fork ni l r).load parent).filterMap nodeWrite =
      (fork ni l r).loadNodes.filterMap nodeWrite := by
  rw [load, List.filterMap_append, List.filterMap_append, nodeWrite_loadCodes, List.nil_append]
  exact List.append_nil _

theorem map_fst_ctWrite_load : ((tree.load parent).filterMap ctWrite).map Prod.fst = tree.ctis := by
  cases tree with
  | leaf => rfl
  | fork => rw [ctWrite_load_fork, map_fst_ctWrite_loadCodes]

theorem symbols_ctWrite_load :
    ((tree.load parent).filterMap ctWrite).filterMap (·.2.sym?) = tree.symbols := by
  cases tree with
  | leaf => rfl
  | fork => rw [ctWrite_load_fork, symbols_ctWrite_loadCodes]

theorem symbols_nodeWrite_load :
    ((tree.load parent).filterMap nodeWrite).filterMap (·.2.sym?) = tree.symbols := by
  cases tree with
  | leaf => rfl
  | fork => rw [nodeWrite_load_fork, symbols_nodeWrite_loadNodes]

/-- The index that ROOT gets: that of the tree's root, or the synthetic parent of a single leaf (R114). -/
def rootIndex (parent : NodeIx) : HostTree → NodeIx
  | .leaf _ _ _  => parent
  | .fork ni _ _ => ni

theorem rootWrite_load : (tree.load parent).filterMap rootWrite = [tree.rootIndex parent] := by
  cases tree with
  | leaf => rfl
  | fork =>
    rw [load, List.filterMap_append, List.filterMap_append, rootWrite_loadCodes, rootWrite_loadNodes]
    rfl

end

/-- The code-table index, the symbol and the code of a leaf: the path to it, or the single bit 0 in a tree of one
symbol (R13, R114). -/
inductive CodeAt : HostTree → List Bool → BitVec 8 → Sym → Prop
  | single {cti ni sym} : CodeAt (.leaf cti ni sym) [false] cti sym
  | path {ni l r bits cti sym} : LeafAt (.fork ni l r) bits cti sym →
      CodeAt (.fork ni l r) bits cti sym

theorem codeAt_of_code {sym : Sym} {bits : List Bool} (h : tree.code sym = some bits) :
    ∃ cti, tree.CodeAt bits cti sym := by
  cases tree with
  | leaf cti ni own =>
    simp only [code, Option.ite_none_right_eq_some, Option.some.injEq] at h
    obtain ⟨rfl, rfl⟩ := h
    exact ⟨cti, .single⟩
  | fork ni l r => exact (leafAt_of_pathTo (tree := fork ni l r) h).imp fun _ => .path

/-- A tree is loaded with the entry of each of its codes. -/
theorem mem_ctWrite_load_iff {cti : BitVec 8} {e : CtEntry} :
    (cti, e) ∈ (tree.load parent).filterMap ctWrite ↔
      ∃ bits sym, tree.CodeAt bits cti sym ∧ e = codeEntry sym bits := by
  cases tree with
  | leaf cti' ni sym' =>
    have hwrite : ((leaf cti' ni sym').load parent).filterMap ctWrite =
        [(cti', codeEntry sym' [false])] := rfl
    rw [hwrite, List.mem_singleton]
    constructor
    · rintro ⟨⟩
      exact ⟨_, _, .single, rfl⟩
    · rintro ⟨bits, sym, ⟨⟩, rfl⟩
      rfl
  | fork ni l r =>
    rw [ctWrite_load_fork, List.mem_filterMap]
    constructor
    · rintro ⟨i, hi, hwrite⟩
      obtain ⟨bits, cti, sym, hleaf, rfl⟩ := mem_loadCodes_iff.1 hi
      cases hwrite
      exact ⟨bits, sym, .path hleaf, rfl⟩
    · rintro ⟨bits, sym, ⟨⟩ | ⟨hleaf⟩, rfl⟩
      exact ⟨_, mem_loadCodes_iff.2 ⟨bits, cti, sym, hleaf, rfl⟩, rfl⟩

theorem loads_of_mem_loadNodes {t : HostTree} (hix : ∀ n ∈ t.indices, n.toNat < p.nNode)
    (hsym : ∀ x ∈ t.symbols, IsSymbol x) (hi : i ∈ t.loadNodes) : Loads p i := by
  induction t with
  | leaf cti ni sym =>
    obtain rfl := List.mem_singleton.1 hi
    exact ⟨hix ni (List.mem_singleton_self _), hsym sym (List.mem_singleton_self _)⟩
  | fork ni l r ihl ihr =>
    simp only [indices, symbols, List.forall_mem_append] at hix hsym
    obtain ⟨⟨hl, hr⟩, hni⟩ := hix
    obtain ⟨hsyml, hsymr⟩ := hsym
    rw [loadNodes, List.mem_append, List.mem_append, List.mem_singleton] at hi
    rcases hi with (hi | hi) | rfl
    · exact ihl hl hsyml hi
    · exact ihr hr hsymr hi
    · exact ⟨hni ni (List.mem_singleton_self _), not_badChild_iff.2 (.inr (hl _ l.index_mem_indices)),
        not_badChild_iff.2 (.inr (hr _ r.index_mem_indices))⟩

namespace Fits

theorem length_code {bits : List Bool} {cti : BitVec 8} {sym : Sym} (hfits : tree.Fits p parent)
    (hp : p.Legal) (h : tree.CodeAt bits cti sym) : 1 ≤ bits.length ∧ bits.length ≤ p.maxLen := by
  obtain ⟨-, -, ⟨hlen, -⟩, -⟩ := hp
  cases h with
  | single => exact ⟨le_rfl, hlen⟩
  | path hleaf => exact ⟨hleaf.length_pos, hleaf.length_le_depth.trans hfits.depth_le⟩

/-- The commands of a tree that fits have legal operands. -/
theorem loads (hfits : tree.Fits p parent) (hp : p.Legal) (hi : i ∈ tree.load parent) : Loads p i := by
  cases tree with
  | leaf cti ni sym =>
    obtain ⟨hparent, -⟩ := hfits.parent_lt rfl
    have hni := hfits.indices_lt ni (List.mem_singleton_self _)
    have hsym := hfits.symbols_legal sym (List.mem_singleton_self _)
    have hcti := hfits.ctis_lt cti (List.mem_singleton_self _)
    have hcode := hfits.length_code hp .single
    simp only [load, List.mem_cons, List.not_mem_nil, or_false] at hi
    rcases hi with rfl | rfl | rfl | rfl
    · exact loads_codeCommand (bits := [false]) hp hcti hsym hcode.1 hcode.2
    · exact ⟨hni, hsym⟩
    · exact ⟨hparent, not_badChild_iff.2 (.inr hni), not_badChild_iff.2 (.inl rfl)⟩
    · exact hparent
  | fork ni l r =>
    rw [load, List.mem_append, List.mem_append, List.mem_singleton] at hi
    rcases hi with (hi | hi) | rfl
    · obtain ⟨bits, cti, sym, hleaf, rfl⟩ := mem_loadCodes_iff.1 hi
      have hcode := hfits.length_code hp (.path hleaf)
      obtain ⟨hcti, hsym⟩ := hleaf.mem
      exact loads_codeCommand hp (hfits.ctis_lt _ hcti) (hfits.symbols_legal _ hsym) hcode.1 hcode.2
    · exact loads_of_mem_loadNodes hfits.indices_lt hfits.symbols_legal hi
    · exact hfits.indices_lt _ (fork ni l r).index_mem_indices

/-- They write different places. -/
theorem loadsDistinct (hfits : tree.Fits p parent) (hp : p.Legal) :
    LoadsDistinct p (tree.load parent) where
  legal _ hi := hfits.loads hp hi
  ct_indices := by
    rw [map_fst_ctWrite_load]
    exact hfits.ctis_nodup
  ct_symbols := by
    rw [symbols_ctWrite_load]
    exact hfits.symbols_nodup
  node_indices := by
    cases tree with
    | leaf cti ni sym =>
      obtain ⟨-, hother⟩ := hfits.parent_lt rfl
      have hne : ni ≠ parent := fun h => hother (List.mem_singleton.2 h.symm)
      exact List.nodup_cons.2 ⟨fun h => hne (List.mem_singleton.1 h), List.nodup_singleton _⟩
    | fork =>
      rw [nodeWrite_load_fork, map_fst_nodeWrite_loadNodes]
      exact hfits.indices_nodup
  leaf_symbols := by
    rw [symbols_nodeWrite_load]
    exact hfits.symbols_nodup
  one_root := by
    rw [rootWrite_load]
    exact le_rfl

end Fits

end HostTree

/-! ### The loaded tables are consistent (R115) -/

namespace State

/-- The nodes of the tree stand in the node table, each at its index. -/
def Embeds (s : State) : HostTree → Prop
  | .leaf _ ni sym => s.nodeAt ni.toNat = .leaf sym
  | .fork ni l r   => s.nodeAt ni.toNat = .internal l.index r.index ∧ s.Embeds l ∧ s.Embeds r

/-- The path from node `cur` ends on a LEAF that holds `sym`, `cur` itself if the path is empty. -/
def Finds (s : State) (cur : NodeIx) (path : List Bool) (sym : Sym) : Prop :=
  (path = [] ∧ s.nodeAt cur.toNat = .leaf sym) ∨ s.LeadsTo cur path sym

theorem childNode_of_lt (hp : s.params.Legal) {ix : NodeIx} (hix : ix.toNat < s.params.nNode) :
    s.childNode ix = s.nodeAt ix.toNat := by
  obtain ⟨-, ⟨-, hnode⟩, -⟩ := hp
  refine if_neg (not_or.2 ⟨?_, hix.not_ge⟩)
  rintro rfl
  exact absurd (hix.trans_le hnode) (by decide)

/-- Only an INTERNAL node has a valid child. -/
theorem exists_internal_of_childNode {n : Nat} {bit : Bool}
    (h : s.childNode ((s.nodeAt n).child bit) ≠ .empty) : ∃ l r, s.nodeAt n = .internal l r := by
  cases hn : s.nodeAt n with
  | internal l r => exact ⟨l, r, rfl⟩
  | leaf | empty => simp [hn, Node.child, childNode] at h

theorem exists_internal_of_leadsTo {cur : NodeIx} {bits : List Bool} {sym : Sym}
    (h : s.LeadsTo cur bits sym) : ∃ l r, s.nodeAt cur.toNat = .internal l r := by
  obtain ⟨before, bit, cur', -, hpass, hleaf⟩ := h
  cases before with
  | nil =>
    obtain rfl : cur = cur' := hpass
    exact exists_internal_of_childNode (by rw [hleaf]; nofun)
  | cons b before =>
    obtain ⟨⟨l, r, hinternal⟩, -⟩ := hpass
    exact exists_internal_of_childNode (by rw [hinternal]; nofun)

/-- A step to a child, and on from there. -/
theorem leadsTo_cons (hp : s.params.Legal) {cur child : NodeIx} {bit : Bool} {path : List Bool}
    {sym : Sym} (hstep : (s.nodeAt cur.toNat).child bit = child)
    (hchild : child.toNat < s.params.nNode) (h : s.Finds child path sym) :
    s.LeadsTo cur (bit :: path) sym := by
  have hnode := childNode_of_lt hp hchild
  rcases h with ⟨rfl, hleaf⟩ | h
  · exact ⟨[], bit, cur, rfl, rfl, by rw [hstep, hnode, hleaf]⟩
  · obtain ⟨l, r, hinternal⟩ := exists_internal_of_leadsTo h
    obtain ⟨before, last, cur', rfl, hpass, hleaf⟩ := h
    refine ⟨bit :: before, last, cur', rfl, ⟨⟨l, r, ?_⟩, ?_⟩, hleaf⟩
    · rw [hstep, hnode, hinternal]
    · rwa [hstep]

/-- In the table the path to a leaf of the tree finds its symbol. -/
theorem Embeds.finds (hp : s.params.Legal) {tree : HostTree} (he : s.Embeds tree)
    (hix : ∀ n ∈ tree.indices, n.toNat < s.params.nNode) {path : List Bool} {cti : BitVec 8}
    {sym : Sym} (h : tree.LeafAt path cti sym) : s.Finds tree.index path sym := by
  induction h with
  | leaf => exact .inl ⟨rfl, he⟩
  | @left ni l r path cti sym _ ih =>
    obtain ⟨hnode, hl, -⟩ := he
    simp only [HostTree.indices, List.forall_mem_append] at hix
    obtain ⟨⟨hlix, -⟩, -⟩ := hix
    exact .inr (leadsTo_cons hp (by rw [HostTree.index, hnode]; rfl) (hlix _ l.index_mem_indices)
      (ih hl hlix))
  | @right ni l r path cti sym _ ih =>
    obtain ⟨hnode, -, hr⟩ := he
    simp only [HostTree.indices, List.forall_mem_append] at hix
    obtain ⟨⟨-, hrix⟩, -⟩ := hix
    exact .inr (leadsTo_cons hp (by rw [HostTree.index, hnode]; rfl) (hrix _ r.index_mem_indices)
      (ih hr hrix))

theorem lt_nSym_of_ctAt_ne_invalid (hw : s.StorageWf) {n : Nat} (h : s.ctAt n ≠ .invalid) :
    n < s.params.nSym := by
  obtain ⟨hct, -⟩ := hw
  by_contra hge
  exact h (List.getD_eq_default _ _ (by omega))

end State

namespace Loaded

theorem nodeAt_eq (h : Loaded s₀ is s) {ni : NodeIx} {v : Node} (hi : i ∈ is)
    (hwrite : nodeWrite i = some (ni, v)) (hv : v ≠ .empty) : s.nodeAt ni.toNat = v :=
  (h.node _ v hv).2 ⟨ni, rfl, List.mem_filterMap.2 ⟨i, hi, hwrite⟩⟩

theorem embeds (h : Loaded s₀ is s) {t : HostTree} (hsub : ∀ i ∈ t.loadNodes, i ∈ is) :
    s.Embeds t := by
  induction t with
  | leaf cti ni sym => exact h.nodeAt_eq (hsub _ (List.mem_singleton_self _)) rfl nofun
  | fork ni l r ihl ihr =>
    simp only [HostTree.loadNodes, List.forall_mem_append] at hsub
    obtain ⟨⟨hl, hr⟩, hni⟩ := hsub
    exact ⟨h.nodeAt_eq (hni _ (List.mem_singleton_self _)) rfl nofun, ihl hl, ihr hr⟩

variable (hfits : tree.Fits s₀.params parent) (hp : s₀.params.Legal)
  (hperm : is.Perm (tree.load parent)) (h : Loaded s₀ is s)

include hperm h in
theorem root_eq : s.root = tree.rootIndex parent := by
  refine h.root _ ((hperm.filterMap rootWrite).mem_iff.2 ?_)
  rw [HostTree.rootWrite_load]
  exact List.mem_singleton_self _

include hfits hp hperm h in
/-- Every code of the tree leads from ROOT to its symbol. -/
theorem leadsTo_of_codeAt {bits : List Bool} {cti : BitVec 8} {sym : Sym}
    (hcode : tree.CodeAt bits cti sym) : s.LeadsTo s.root bits sym := by
  rw [root_eq hperm h]
  have hmem : ∀ i ∈ tree.load parent, i ∈ is := fun i hi => hperm.mem_iff.2 hi
  rw [← h.params_eq] at hp hfits
  cases hcode with
  | @single cti ni sym =>
    have hparent : s.nodeAt parent.toNat = .internal ni nullIx :=
      h.nodeAt_eq (hmem (.ldint parent ni nullIx) (by simp [HostTree.load])) rfl nofun
    have hleaf : s.nodeAt ni.toNat = .leaf sym :=
      h.nodeAt_eq (hmem (.ldleaf ni sym) (by simp [HostTree.load])) rfl nofun
    exact State.leadsTo_cons hp (by rw [HostTree.rootIndex, hparent]; rfl)
      (hfits.indices_lt ni (List.mem_singleton_self _)) (.inl ⟨rfl, hleaf⟩)
  | @path ni l r bits cti sym hleaf =>
    have he : s.Embeds (.fork ni l r) :=
      h.embeds fun i hi => hmem i (List.mem_append_left _ (List.mem_append_right _ hi))
    rcases he.finds hp hfits.indices_lt hleaf with ⟨rfl, -⟩ | hlead
    · exact absurd hleaf.length_pos (by decide)
    · exact hlead

include hperm h in
/-- Every code of the tree is in the code table. -/
theorem exists_ctAt_of_codeAt {bits : List Bool} {cti : BitVec 8} {sym : Sym}
    (hcode : tree.CodeAt bits cti sym) :
    cti.toNat < s.params.nSym ∧ s.ctAt cti.toNat = codeEntry sym bits := by
  have hat : s.ctAt cti.toNat = codeEntry sym bits :=
    (h.ct _ _ (codeEntry_ne_invalid sym bits)).2 ⟨cti, rfl,
      (hperm.filterMap ctWrite).mem_iff.2 (HostTree.mem_ctWrite_load_iff.2 ⟨bits, sym, hcode, rfl⟩)⟩
  exact ⟨State.lt_nSym_of_ctAt_ne_invalid h.inv.storage (by rw [hat]; nofun), hat⟩

include hfits hp hperm h in
/-- The loaded tables are consistent: the codes are those of the tree, and so are the LEAFs. -/
theorem consistent : s.Consistent := by
  refine ⟨fun n sym len code hn hat => ?codes, fun sym hleaf => ?leaves⟩
  case codes =>
    obtain ⟨cti, -, hmem⟩ := (h.ct n (.valid sym len code) nofun).1 hat
    obtain ⟨bits, sym', hcode, hentry⟩ :=
      HostTree.mem_ctWrite_load_iff.1 ((hperm.filterMap ctWrite).mem_iff.1 hmem)
    cases hentry
    obtain ⟨-, hmax⟩ := hfits.length_code hp hcode
    have ⟨_, _, ⟨_, hlen⟩, _⟩ := hp
    rw [bitString_codeEntry (hmax.trans hlen)]
    exact leadsTo_of_codeAt hfits hp hperm h hcode
  case leaves =>
    have hheld : ∃ n, (s.nodeAt n).sym? = some sym := by
      rcases hleaf with hroot | ⟨bits, before, bit, cur, -, -, hlast⟩
      · exact ⟨_, by rw [hroot]; rfl⟩
      · unfold State.childNode at hlast
        split at hlast
        · cases hlast
        · exact ⟨_, by rw [hlast]; rfl⟩
    obtain ⟨n, hn⟩ := hheld
    have hsym := h.node.symbol_mem Node.sym? rfl hn
    rw [((hperm.filterMap nodeWrite).filterMap _).mem_iff, HostTree.symbols_nodeWrite_load,
      ← HostTree.symbols_ctWrite_load tree parent, List.mem_filterMap] at hsym
    obtain ⟨⟨cti, e⟩, hmem, he⟩ := hsym
    obtain ⟨bits, sym', hcode, rfl⟩ := HostTree.mem_ctWrite_load_iff.1 hmem
    obtain ⟨hlt, hat⟩ := exists_ctAt_of_codeAt hperm h hcode
    exact ⟨cti.toNat, hlt, by rw [hat]; exact he⟩

end Loaded

/-- Settles O53: the commands write different places, and what they leave is consistent. -/
theorem loadingATreeMakesTheTablesConsistent : Obligations.LoadingATreeMakesTheTablesConsistent := by
  intro p tree parent tables hp hfits hperm
  obtain ⟨t, hrun, ht⟩ := (loaded_nil (s₀ := State.resetOf p) hp).runWords_load
    ((hfits.loadsDistinct hp).perm hperm)
  exact ⟨t, ⟨hrun, ht.running⟩, Loaded.consistent hfits hp hperm ht⟩

end Sys2Proof.Machine

/-! The use sequence, end to end (R262): reset, load, encode; then decode and pack, in either order. -/

namespace Sys2Proof.Machine

variable {s s₀ t u : State} {text : List Sym}

/-! ### Runs, put together and with the other reader elsewhere -/

theorem runWords_append {ws ws' : List CmdWord} {rs rs' : List RspWord}
    (h : runWords s ws = some (t, rs)) (h' : runWords t ws' = some (u, rs')) :
    runWords s (ws ++ ws') = some (u, rs ++ rs') := by
  induction ws generalizing s rs with
  | nil =>
    cases h
    exact h'
  | cons w ws ih =>
    obtain ⟨v, r, rs'', hv, htxn, hrest, rfl⟩ := runWords_cons_eq_some h
    have hfirst : transact s w = some ({ v with txn := .idle }, r) := by
      simp only [transact, hv, htxn]
    exact runWords_cons hfirst (ih hrest)

/-- DECs answer the same with the packer anywhere (R164). -/
theorem runWords_dec_withHxIdx {k : Nat} {rs : List RspWord} (g : BitPos)
    (h : runWords s (List.replicate k (encode .dec)) = some (t, rs)) :
    runWords (s.withHxIdx g) (List.replicate k (encode .dec)) = some (t.withHxIdx g, rs) := by
  induction k generalizing s rs with
  | zero =>
    cases h
    rfl
  | succ k ih =>
    obtain ⟨v, r, rs', hv, htxn, hrest, rfl⟩ := runWords_cons_eq_some h
    rw [executeWord_encode] at hv
    exact runWords_cons (transact_dec_withHxIdx g (transact_encode hv htxn)) (ih hrest)

/-- DECs that do not fault move DEC_POS and nothing else of a block with no transaction outstanding. -/
theorem runWords_dec_frame {k : Nat} {rs : List RspWord} (hidle : s.txn = .idle)
    (h : runWords s (List.replicate k (encode .dec)) = some (t, rs)) (hf : t.faulted = false) :
    ∃ pos, t = s.withDecPos pos := by
  have hrun : RunsSafely s (List.replicate k .dec) t rs := ⟨by rwa [List.map_replicate], hf⟩
  refine RunsSafely.induct (P := fun x => ∃ pos, x = s.withDecPos pos) hrun ?_ ?_ ⟨s.decPos, rfl⟩
  · intro i hi
    rw [List.eq_of_mem_replicate hi]
    nofun
  · rintro i hi _ b he ⟨pos, rfl⟩
    obtain rfl := List.eq_of_mem_replicate hi
    have hdone : ∀ pos : BitPos, ({ s with decPos := pos, txn := .idle } : State) = s.withDecPos pos :=
      fun pos => by rw [← hidle]; rfl
    cases he with
    | decEnd => exact ⟨pos, hdone pos⟩
    | dec => exact ⟨_, hdone _⟩

/-! ### Encoding a text (R140, R141) -/

/-- One ENC with a code that fits appends it and answers. -/
theorem State.HasCode.transact_enc {sym : Sym} {bits : List Bool} (hinv : s.Inv)
    (hf : s.faulted = false) (hcode : s.HasCode sym bits)
    (hfit : s.bsLen.toNat + bits.length ≤ s.params.bsCap) :
    ∃ r, transact s (encode (.enc sym)) = some ({ s.appendBits bits with txn := .idle }, r) := by
  obtain ⟨i, len, code, hi, hat, rfl⟩ := hcode
  have hstored := hinv.ctAt_stored hi
  rw [hat] at hstored
  obtain ⟨hsym, -⟩ := hstored
  rw [bitString_length] at hfit
  have hexec := exec_enc_of_fits hf hsym (s.codeOf_eq hinv.codes_unique hi hat) hfit
  have hanswer := transact_encode hexec rfl
  exact ⟨_, hanswer⟩

/-- The ENCs of a text whose codes fit append the codes in order, and write the bit buffer alone. -/
theorem runWords_encs {codes : List (List Bool)} (hinv : s.Inv) (hf : s.faulted = false)
    (hidle : s.txn = .idle) (hcodes : List.Forall₂ s.HasCode text codes)
    (hfit : s.bsLen.toNat + codes.flatten.length ≤ s.params.bsCap) :
    ∃ t rs, runWords s ((text.map .enc).map encode) = some (t, rs) ∧ t.Inv ∧
      t.bitStream = s.bitStream ++ codes.flatten ∧
      ∃ bs len, t = { s with bs := bs, bsLen := len } := by
  induction text generalizing s codes with
  | nil =>
    cases hcodes
    exact ⟨s, [], rfl, hinv, (List.append_nil _).symm, s.bs, s.bsLen, rfl⟩
  | cons sym text ih =>
    obtain _ | @⟨_, bits, _, codes, hcode, hrest⟩ := hcodes
    have ⟨_, _, _, _, hcap⟩ := hinv.params_legal
    rw [List.flatten_cons, List.length_append] at hfit
    obtain ⟨r, hfirst⟩ := hcode.transact_enc hinv hf (by omega)
    have hlen := hinv.toNat_bsLen_appendBits (bits := bits) (by omega)
    have hstream := s.bitStream_appendBits bits hinv.storage (by omega)
    obtain ⟨t, rs, hrun, ht, hbits, bs, len, hframe⟩ :=
      ih (s := { s.appendBits bits with txn := .idle })
        ((hinv.appendBits (by omega)).atInterface _ _) hf rfl hrest
        (by show (s.appendBits bits).bsLen.toNat + _ ≤ s.params.bsCap; omega)
    refine ⟨t, r :: rs, runWords_cons hfirst hrun, ht, ?_, bs, len, ?_⟩
    · calc t.bitStream = (s.appendBits bits).bitStream ++ codes.flatten := hbits
        _ = s.bitStream ++ (bits :: codes).flatten := by
          rw [hstream, List.append_assoc, List.flatten_cons]
    · rw [hframe, ← hidle]
      rfl

/-! ### Decoding to END and packing to END, in either order -/

/-- The DECs of a text still to come, and one more, answer with the text and END. -/
theorem State.Decodes.runWords_dec_to_end (h : s.Decodes text) :
    ∃ u outs decEnd,
      runWords s (List.replicate (text.length + 1) (encode .dec)) = some (u, outs ++ [decEnd]) ∧
      u.faulted = false ∧ outs.map rspStatus = text.map (fun _ => 0#4) ∧
      outs.map (fun r => r.extractLsb 20 0) = text ∧ rspStatus decEnd = 1 := by
  obtain ⟨v, outs, hrun, hdone, hstatuses, hsyms⟩ := h.runWords_dec
  obtain ⟨u, decEnd, hend, hstatus, hf⟩ := transact_dec_end hdone.running hdone.decPos_eq_bsLen
  refine ⟨u, outs, decEnd, ?_, hf, hstatuses, hsyms, hstatus⟩
  rw [List.replicate_succ']
  exact runWords_append hrun (runWords_cons hend rfl)

/-- Both readers from their start, in either order: the text, the HexString, and one final state. -/
theorem State.Decodes.runWords_both (h : s.Decodes text) (hidle : s.txn = .idle) (hstart : s.hxIdx = 0)
    {n : Nat} (hn : n = groupCount s.bitStream.length) :
    let decs := List.replicate (text.length + 1) (encode .dec)
    let hexrds := List.replicate (n + 1) (encode .hexrd)
    ∃ (u : State) (outs digits : List RspWord) (decEnd hexEnd : RspWord),
      runWords s (decs ++ hexrds) = some (u, (outs ++ [decEnd]) ++ (digits ++ [hexEnd])) ∧
      runWords s (hexrds ++ decs) = some (u, (digits ++ [hexEnd]) ++ (outs ++ [decEnd])) ∧
      u.faulted = false ∧ outs.map rspStatus = text.map (fun _ => 0#4) ∧
      outs.map (fun r => r.extractLsb 20 0) = text ∧ rspStatus decEnd = 1 ∧
      IsHexString s.bitStream digits ∧ rspStatus hexEnd = 1 := by
  intro decs hexrds
  have ⟨_, _, hlen⟩ := h.storage
  have hcount : n = groupCount s.bsLen.toNat := by rw [hn, s.bitStream_eq h.storage, hlen]
  obtain ⟨v, outs, decEnd, hdecs, hf, hstatuses, hsyms, hend⟩ := h.runWords_dec_to_end
  obtain ⟨pos, rfl⟩ := runWords_dec_frame hidle hdecs hf
  have hhex := runWords_hexrd_all (s := s) h.running hstart hcount
  have hhex' := runWords_hexrd_all (s := s.withDecPos pos) hf hstart hcount
  have hread : s.afterGroups n = s.withHxIdx (BitVec.ofNat 24 n) := by
    rw [State.afterGroups, ← hidle]
    rfl
  have hdecs' := runWords_dec_withHxIdx (BitVec.ofNat 24 n) hdecs
  rw [← hread] at hdecs'
  have hfinal : (s.withDecPos pos).withHxIdx (BitVec.ofNat 24 n) = (s.withDecPos pos).afterGroups n := by
    rw [State.afterGroups, ← hidle]
    rfl
  rw [hfinal] at hdecs'
  exact ⟨_, outs, _, decEnd, _, runWords_append hdecs hhex', runWords_append hhex hdecs', hf, hstatuses,
    hsyms, hend, isHexString_digits (fun _ => rfl) hn, rspStatus_hexEndRsp n⟩

/-! ### The use sequence (R262) -/

/-- A code of a loaded tree is in the code table, with the bits ENC appends. -/
theorem Loaded.hasCode_of_code {is : List Instr} {tree : HostTree} {parent : NodeIx}
    (hfits : tree.Fits s₀.params parent) (hp : s₀.params.Legal)
    (hperm : is.Perm (tree.load parent)) (h : Loaded s₀ is s) {sym : Sym} {bits : List Bool}
    (hcode : tree.code sym = some bits) : s.HasCode sym bits := by
  obtain ⟨cti, hat⟩ := HostTree.codeAt_of_code hcode
  obtain ⟨-, hmax⟩ := hfits.length_code hp hat
  have ⟨_, _, ⟨_, hlen⟩, _⟩ := hp
  obtain ⟨hcti, hentry⟩ := Loaded.exists_ctAt_of_codeAt hperm h hat
  exact ⟨cti.toNat, _, _, hcti, hentry, (bitString_codeEntry (hmax.trans hlen)).symm⟩

/-- A loaded block, the stream empty and both readers at its start, encodes a text of the tree's symbols whose
codes fit; the stream then decodes to the text. -/
theorem Loaded.runWords_encs_decodes {is : List Instr} {tree : HostTree} {parent : NodeIx}
    {codes : List (List Bool)} (hfits : tree.Fits s₀.params parent) (hp : s₀.params.Legal)
    (hperm : is.Perm (tree.load parent)) (h : Loaded s₀ is s)
    (htext : text.map tree.code = codes.map some)
    (hfit : codes.flatten.length ≤ s₀.params.bsCap) :
    ∃ t rs, runWords s ((text.map .enc).map encode) = some (t, rs) ∧ t.Decodes text ∧
      t.bitStream = codes.flatten ∧ t.txn = .idle ∧ t.hxIdx = 0 := by
  have hcode : List.Forall₂ (fun sym bits => tree.code sym = some bits) text codes := by
    rw [← List.forall₂_eq_eq_eq, List.forall₂_map_left_iff, List.forall₂_map_right_iff] at htext
    exact htext
  have hcodes : List.Forall₂ s.HasCode text codes :=
    hcode.imp fun _ _ => Loaded.hasCode_of_code hfits hp hperm h
  have hcons : s.Consistent := Loaded.consistent hfits hp hperm h
  obtain ⟨ct, node, root, hframe⟩ := h.frame
  have hstart : s.bitStream = [] ∧ s.bsLen = 0 ∧ s.decPos = 0 ∧ s.hxIdx = 0 ∧ s.txn = .idle := by
    rw [hframe]
    exact ⟨rfl, rfl, rfl, rfl, rfl⟩
  obtain ⟨hbits, hlen, hdec, hhex, hidle⟩ := hstart
  obtain ⟨t, rs, hrun, ht, hstream, bs, len, rfl⟩ :=
    runWords_encs h.inv h.running hidle hcodes (by simpa [hlen, h.params_eq] using hfit)
  rw [hbits, List.nil_append] at hstream
  refine ⟨_, rs, hrun, ⟨ht.storage, h.running, ht.positions.dec_le_len, codes, ?paths, ?bits⟩, hstream,
    hidle, hhex⟩
  case paths =>
    refine hcodes.imp fun sym bits hc => ?_
    exact (hcons.leadsTo hc).congr rfl rfl
  case bits =>
    rw [hstream, hdec]
    rfl

theorem transact_srst (s : State) : transact s (encode .srst) = some (s.clear, 0) :=
  transact_encode (t := s.clear.respond .ok 0) exec_srst
    (by rw [State.respond_ok_zero s.clear_fcause])

/-- Settles O54: reset, load and encode, and then both readers over a stream that decodes to the text. -/
theorem useSequenceEncodesAndDecodesTheText : Obligations.UseSequenceEncodesAndDecodesTheText := by
  intro s tree parent tables text codes hp hfits hperm htext hfit decs hexrds
  obtain ⟨a, hload, ha⟩ := (loaded_nil hp).runWords_load ((hfits.loadsDistinct hp).perm hperm)
  obtain ⟨t, rs, hencs, hdecodes, hstream, hidle, hhex⟩ :=
    Loaded.runWords_encs_decodes hfits hp hperm ha htext hfit
  have hrun := runWords_append (runWords_cons (transact_srst s) hload) hencs
  rw [← List.map_cons, ← List.map_append] at hrun
  refine ⟨t, _, ⟨hrun, hdecodes.running⟩, hstream, ?_⟩
  subst decs hexrds
  rw [← hstream]
  exact hdecodes.runWords_both hidle hhex rfl

end Sys2Proof.Machine
